-- ==== Sys2Proof/Word.lean ====
section
/-! DEFINITION. The plain data types of the spec (`00_scope.md` R9, `20_memory.md` R60): bytes, 16-bit words and
the index of one of sixteen like things. -/

namespace Sys2Proof

/-- `u8` of R9: a byte of memory, a V register, a timer, an immediate. -/
abbrev Byte := BitVec 8

/-- `u16` of R9: an instruction word, `pc`, `I`, a stack entry. -/
abbrev Word := BitVec 16

/-- A register, key or stack-slot index, 0..15: it always comes from a 4-bit field (R24, R219). -/
abbrev Idx := Fin 16

end Sys2Proof
end

