-- ==== Sys2Proof/Syntax.lean ====
section
/-! DEFINITION. The instruction set: one constructor per row of `spec/opcode_table.json` (`30_encoding.md` R86),
with the operand fields of the row's format (R81, R82). The operand types carry the fields' ranges, so every term of
`Instr` is an instruction that some word encodes: a 4-bit field is an `Idx`, `kk` a `Byte`, `nnn` a 12-bit address. -/

namespace Sys2Proof

/-- The 35 instructions, in the opcode map's order. Each docstring gives the source's pattern, the mnemonic of the
table and the rule. -/
inductive Instr where
  /-- 0000 NOP (R101). -/
  | nop
  /-- 00E0 CLS (R171). -/
  | cls
  /-- 00EE RET (R102). -/
  | ret
  /-- 1nnn JP nnn (R103). -/
  | jp (nnn : BitVec 12)
  /-- 2nnn CALL nnn (R104). -/
  | call (nnn : BitVec 12)
  /-- 3xkk SE Vx, kk (R106). -/
  | seImm (x : Idx) (kk : Byte)
  /-- 4xkk SNE Vx, kk (R107). -/
  | sneImm (x : Idx) (kk : Byte)
  /-- 5xy0 SE Vx, Vy (R108). -/
  | seReg (x y : Idx)
  /-- 6xkk LD Vx, kk (R121). -/
  | ldImm (x : Idx) (kk : Byte)
  /-- 7xkk ADD Vx, kk (R122). -/
  | addImm (x : Idx) (kk : Byte)
  /-- 8xy0 LD Vx, Vy (R125). -/
  | ldReg (x y : Idx)
  /-- 8xy1 OR Vx, Vy (R126). -/
  | orReg (x y : Idx)
  /-- 8xy2 AND Vx, Vy (R127). -/
  | andReg (x y : Idx)
  /-- 8xy3 XOR Vx, Vy (R128). -/
  | xorReg (x y : Idx)
  /-- 8xy4 ADD Vx, Vy (R129). -/
  | addReg (x y : Idx)
  /-- 8xy5 SUB Vx, Vy (R130). -/
  | subReg (x y : Idx)
  /-- 8xy6 SHR Vx (R131); the y field is ignored and no operand. -/
  | shr (x : Idx)
  /-- 8xy7 SUBN Vx, Vy (R132). -/
  | subnReg (x y : Idx)
  /-- 8xyE SHL Vx (R133); the y field is ignored and no operand. -/
  | shl (x : Idx)
  /-- 9xy0 SNE Vx, Vy (R109). -/
  | sneReg (x y : Idx)
  /-- Annn LD I, nnn (R151). -/
  | ldI (nnn : BitVec 12)
  /-- Bnnn JP V0, nnn (R110). -/
  | jpV0 (nnn : BitVec 12)
  /-- Cxkk RND Vx, kk (R141). -/
  | rnd (x : Idx) (kk : Byte)
  /-- Dxyn DRW Vx, Vy, n (R172). -/
  | drw (x y : Idx) (n : Idx)
  /-- Ex9E SKP Vx (R181). -/
  | skp (x : Idx)
  /-- ExA1 SKNP Vx (R182). -/
  | sknp (x : Idx)
  /-- Fx07 LD Vx, DT (R184). -/
  | ldVxDt (x : Idx)
  /-- Fx0A LD Vx, K (R186). -/
  | ldVxK (x : Idx)
  /-- Fx15 LD DT, Vx (R187). -/
  | ldDtVx (x : Idx)
  /-- Fx18 LD ST, Vx (R188). -/
  | ldStVx (x : Idx)
  /-- Fx1E ADD I, Vx (R152). -/
  | addI (x : Idx)
  /-- Fx29 LD F, Vx (R153). -/
  | ldF (x : Idx)
  /-- Fx33 LD B, Vx (R154). -/
  | ldB (x : Idx)
  /-- Fx55 LD [I], Vx (R155): store V0..Vx. -/
  | storeRegs (x : Idx)
  /-- Fx65 LD Vx, [I] (R156): load V0..Vx. -/
  | loadRegs (x : Idx)
deriving DecidableEq, Repr

end Sys2Proof
end

