-- ==== Sys2Proof/Decode.lean ====
section
/-! DEFINITION. The decoder of `30_encoding.md` (R80 to R91), total on words and on byte sequences, and the encoder
written from the same bit diagrams (R81). -/

namespace Sys2Proof

/-! ## Bytes and words: the byte order of R64 -/

/-- Big-endian: the byte at the lower address is the high byte of the word (R64). -/
def wordOfBytes (high low : Byte) : Word := high ++ low

/-- `w[15:8]`, the byte at the lower address (R64). -/
def highByte (w : Word) : Byte := w.extractLsb' 8 8

/-- `w[7:0]`, the byte at the higher address (R64). -/
def lowByte (w : Word) : Byte := w.extractLsb' 0 8

/-! ## The fields of R81 -/

/-- `family = w[15:12]`. -/
def fieldFamily (w : Word) : BitVec 4 := w.extractLsb' 12 4

/-- `x = w[11:8]`, a register index (R82). -/
def fieldX (w : Word) : Idx := (w.extractLsb' 8 4).toFin

/-- `y = w[7:4]`, a register index (R82). -/
def fieldY (w : Word) : Idx := (w.extractLsb' 4 4).toFin

/-- `n = w[3:0]`: a sub-selector, or the row count of Dxyn (R82). -/
def fieldN (w : Word) : Idx := (w.extractLsb' 0 4).toFin

/-- `kk = w[7:0]`, used unchanged (R82). -/
def fieldKk (w : Word) : Byte := w.extractLsb' 0 8

/-- `nnn = w[11:0]` (R82). -/
def fieldNnn (w : Word) : BitVec 12 := w.extractLsb' 0 12

/-! ## Decode -/

/-- Family 0 is decoded on the whole word (R87). -/
def decodeFamily0 (w : Word) : Option Instr :=
  if w = 0x0000#16 then some .nop
  else if w = 0x00E0#16 then some .cls
  else if w = 0x00EE#16 then some .ret
  else none

/-- Family 8: the sub-selector is `n` (R88). -/
def decodeFamily8 (w : Word) : Option Instr :=
  match w.extractLsb' 0 4 with
  | 0x0#4 => some (.ldReg (fieldX w) (fieldY w))
  | 0x1#4 => some (.orReg (fieldX w) (fieldY w))
  | 0x2#4 => some (.andReg (fieldX w) (fieldY w))
  | 0x3#4 => some (.xorReg (fieldX w) (fieldY w))
  | 0x4#4 => some (.addReg (fieldX w) (fieldY w))
  | 0x5#4 => some (.subReg (fieldX w) (fieldY w))
  | 0x6#4 => some (.shr (fieldX w))
  | 0x7#4 => some (.subnReg (fieldX w) (fieldY w))
  | 0xE#4 => some (.shl (fieldX w))
  | _ => none

/-- Family E: the sub-selector is `kk` (R88). -/
def decodeFamilyE (w : Word) : Option Instr :=
  match fieldKk w with
  | 0x9E#8 => some (.skp (fieldX w))
  | 0xA1#8 => some (.sknp (fieldX w))
  | _ => none

/-- Family F: the sub-selector is `kk` (R88). -/
def decodeFamilyF (w : Word) : Option Instr :=
  match fieldKk w with
  | 0x07#8 => some (.ldVxDt (fieldX w))
  | 0x0A#8 => some (.ldVxK (fieldX w))
  | 0x15#8 => some (.ldDtVx (fieldX w))
  | 0x18#8 => some (.ldStVx (fieldX w))
  | 0x1E#8 => some (.addI (fieldX w))
  | 0x29#8 => some (.ldF (fieldX w))
  | 0x33#8 => some (.ldB (fieldX w))
  | 0x55#8 => some (.storeRegs (fieldX w))
  | 0x65#8 => some (.loadRegs (fieldX w))
  | _ => none

/-- Families 5 and 9 require `n = 0` (R88). -/
def whenNZero (w : Word) (i : Instr) : Option Instr :=
  if w.extractLsb' 0 4 = 0x0#4 then some i else none

/-- Decode, "a total function over all 65536 possible words" (R85): by family, then by sub-selector (R86). `none` is
an unimplemented word (R91). -/
def decode (w : Word) : Option Instr :=
  match fieldFamily w with
  | 0x0#4 => decodeFamily0 w
  | 0x1#4 => some (.jp (fieldNnn w))
  | 0x2#4 => some (.call (fieldNnn w))
  | 0x3#4 => some (.seImm (fieldX w) (fieldKk w))
  | 0x4#4 => some (.sneImm (fieldX w) (fieldKk w))
  | 0x5#4 => whenNZero w (.seReg (fieldX w) (fieldY w))
  | 0x6#4 => some (.ldImm (fieldX w) (fieldKk w))
  | 0x7#4 => some (.addImm (fieldX w) (fieldKk w))
  | 0x8#4 => decodeFamily8 w
  | 0x9#4 => whenNZero w (.sneReg (fieldX w) (fieldY w))
  | 0xA#4 => some (.ldI (fieldNnn w))
  | 0xB#4 => some (.jpV0 (fieldNnn w))
  | 0xC#4 => some (.rnd (fieldX w) (fieldKk w))
  | 0xD#4 => some (.drw (fieldX w) (fieldY w) (fieldN w))
  | 0xE#4 => decodeFamilyE w
  | 0xF#4 => decodeFamilyF w
  | _ => none

/-- Why a byte sequence decodes to no instruction. -/
inductive DecodeError where
  /-- Fewer than the two bytes every instruction has (R80). -/
  | truncated
  /-- The word matches no row of the opcode map (R85, R91). -/
  | unimplemented (w : Word)
deriving DecidableEq, Repr

/-- Decode the two bytes at the head of a sequence (R80: "always consumes exactly two bytes"); answers the
instruction and the bytes after it, or rejects by name. -/
def decodeBytes : List Byte → Except DecodeError (Instr × List Byte)
  | high :: low :: rest =>
    match decode (wordOfBytes high low) with
    | some i => .ok (i, rest)
    | none => .error (.unimplemented (wordOfBytes high low))
  | _ => .error .truncated

/-- The host's question: the instruction the decoder reads from the row's bits `w`, laid out as the hardware stores
them, high byte first (R64). Every instruction has one 16-bit word (R80), so `nbits` adds nothing. -/
def decodeTableWord (_nbits w : Nat) : Option Instr :=
  match decodeBytes [highByte (BitVec.ofNat 16 w), lowByte (BitVec.ofNat 16 w)] with
  | .ok (i, _) => some i
  | .error _ => none

/-! ## Encode -/

/-- Format F-NNN (R81). -/
def wordNnn (family : BitVec 4) (nnn : BitVec 12) : Word := family ++ nnn

/-- Formats F-XKK, and F-X with its fixed low byte (R81). -/
def wordXkk (family : BitVec 4) (x : Idx) (kk : Byte) : Word := family ++ BitVec.ofFin (w := 4) x ++ kk

/-- Formats F-XYN, and F-XY with its fixed `n` (R81). -/
def wordXyn (family : BitVec 4) (x y n : Idx) : Word :=
  family ++ BitVec.ofFin (w := 4) x ++ BitVec.ofFin (w := 4) y ++ BitVec.ofFin (w := 4) n

/-- The word of an instruction (R81, R86). SHR and SHL ignore their y field (R92); the encoder writes 0 there
(log entry 8). -/
def encode : Instr → Word
  | .nop => 0x0000#16
  | .cls => 0x00E0#16
  | .ret => 0x00EE#16
  | .jp nnn => wordNnn 0x1 nnn
  | .call nnn => wordNnn 0x2 nnn
  | .seImm x kk => wordXkk 0x3 x kk
  | .sneImm x kk => wordXkk 0x4 x kk
  | .seReg x y => wordXyn 0x5 x y 0x0
  | .ldImm x kk => wordXkk 0x6 x kk
  | .addImm x kk => wordXkk 0x7 x kk
  | .ldReg x y => wordXyn 0x8 x y 0x0
  | .orReg x y => wordXyn 0x8 x y 0x1
  | .andReg x y => wordXyn 0x8 x y 0x2
  | .xorReg x y => wordXyn 0x8 x y 0x3
  | .addReg x y => wordXyn 0x8 x y 0x4
  | .subReg x y => wordXyn 0x8 x y 0x5
  | .shr x => wordXyn 0x8 x 0x0 0x6
  | .subnReg x y => wordXyn 0x8 x y 0x7
  | .shl x => wordXyn 0x8 x 0x0 0xE
  | .sneReg x y => wordXyn 0x9 x y 0x0
  | .ldI nnn => wordNnn 0xA nnn
  | .jpV0 nnn => wordNnn 0xB nnn
  | .rnd x kk => wordXkk 0xC x kk
  | .drw x y n => wordXyn 0xD x y n
  | .skp x => wordXkk 0xE x 0x9E
  | .sknp x => wordXkk 0xE x 0xA1
  | .ldVxDt x => wordXkk 0xF x 0x07
  | .ldVxK x => wordXkk 0xF x 0x0A
  | .ldDtVx x => wordXkk 0xF x 0x15
  | .ldStVx x => wordXkk 0xF x 0x18
  | .addI x => wordXkk 0xF x 0x1E
  | .ldF x => wordXkk 0xF x 0x29
  | .ldB x => wordXkk 0xF x 0x33
  | .storeRegs x => wordXkk 0xF x 0x55
  | .loadRegs x => wordXkk 0xF x 0x65

/-- The two bytes of an instruction as memory holds them (R64). -/
def encodeBytes (i : Instr) : List Byte := [highByte (encode i), lowByte (encode i)]

end Sys2Proof
end

