-- ==== Sys2Proof/Config.lean ====
section
/-! DEFINITION. What is fixed for the machine (`00_scope.md` R7) and the one free value of the model. The parameter
FONT_ROM, which R7 leaves OPEN, is an argument of the machine: `State` carries it (log entry 2). -/

namespace Sys2Proof.Config

/-- MEM_SIZE: addresses 0..4095 (R7, R60). -/
abbrev memSize : Nat := 4096

/-- PROGRAM_BASE: where `load` puts an image and where execution starts (R7, R234). -/
abbrev programBase : Nat := 0x200

/-- MAX_PROGRAM_LEN: 4096 - 512 (R7). -/
abbrev maxProgramLen : Nat := 3584

/-- The size of the font region, bytes 0..79 (R7, R31). -/
abbrev fontSize : Nat := 80

/-- FONT_GLYPH_BYTES (R7). -/
abbrev glyphBytes : Nat := 5

/-- STACK_DEPTH (R7, R30). -/
abbrev stackDepth : Nat := 16

/-- DISPLAY_W (R7, R32). -/
abbrev displayWidth : Nat := 64

/-- DISPLAY_H (R7, R32). -/
abbrev displayHeight : Nat := 32

/-- The free value of the model: the byte `draw_byte()` gives the n-th `Cxkk` (R13, R141, R217: "may supply any
value 0..255", "No rule fixes how r is generated"). It has no body, so a proof can rest on no value of it
(log entry 1). -/
opaque randomByte : Nat → Byte

end Sys2Proof.Config
end

