-- ==== Sys2Proof/Machine/State.lean ====
section
/-! DEFINITION. The machine state (`10_state.md` R20 and its table), the fault information of `60_exceptions.md` R203,
the reasons a step stops, and the state after reset (R39). Plain data throughout. -/

namespace Sys2Proof.Machine

/-- The space an out-of-bounds access missed (R203). -/
inductive Space where
  /-- The 4096-byte memory: `addr` is an address of at least 4096. -/
  | mem
  /-- The sixteen keys: `addr` is the key index V[x], at least 16. -/
  | keys
deriving DecidableEq, Repr

/-- The fault kinds of R201. -/
inductive FaultKind where
  | outOfBounds
  | stackOverflow
  | stackUnderflow
  | unimplemented
deriving DecidableEq, Repr

/-- The fault codes of R203 (code 0 is not a fault). -/
def FaultKind.code : FaultKind → Nat
  | .outOfBounds => 1
  | .stackOverflow => 2
  | .stackUnderflow => 3
  | .unimplemented => 4

/-- `FaultInfo = (code, pc, word, space, addr)` of R203; the code is the kind's, and `none` is the table's NONE. -/
structure FaultInfo where
  kind : FaultKind
  pc : Option Word
  word : Option Word
  loc : Option (Space × Nat)
deriving DecidableEq, Repr

/-- The engine status of R37. -/
inductive Status where
  | running
  | faulted (info : FaultInfo)
deriving DecidableEq, Repr

/-- The 64 x 32 grid of R32, row by row from the top: cell `x + 64*y` is column x of row y. -/
abbrev Display := Vector (Vector Bool Config.displayWidth) Config.displayHeight

/-- Memory (R31, R60) as the cells that differ from their reset contents, addresses strictly rising. -/
abbrev Memory := List Host.Cell

/-- The machine state: the record of R20 with its added `status` (R37), then two fields that are the MODEL's own: the
parameter FONT_ROM (R7: "A model takes the OPEN ones as arguments"; log entry 2) and the count of random bytes drawn
(log entry 1). -/
structure State where
  /-- Program counter, u16 (R21, R22). -/
  pc : Word
  /-- The 4096 bytes of memory (R31, R60). -/
  mem : Memory
  /-- The display cells (R32). -/
  disp : Display
  /-- V[0..15]; V[15] is VF (R24, R25). -/
  v : Vector Byte 16
  /-- The address register I, u16 (R29). -/
  i : Word
  /-- The call stack's sixteen entries (R30). -/
  stack : Vector Word 16
  /-- The number of stack entries in use, 0..16 (R30). -/
  sp : Fin 17
  /-- The key-down states (R33). -/
  keys : Vector Bool 16
  /-- The delay timer DT (R34). -/
  dt : Byte
  /-- The sound timer ST (R34). -/
  st : Byte
  /-- RUNNING or FAULTED with its information (R37). -/
  status : Status
  /-- The MODEL's own: the parameter FONT_ROM (R7, R31), written by nothing. -/
  fontRom : Vector Byte Config.fontSize
  /-- The MODEL's own: how many random bytes have been drawn; it selects the next free value. -/
  draws : Nat
deriving DecidableEq, Repr

/-- Why a step stops. -/
inductive Fault where
  /-- Raised by `step`, and by nothing else, when the status is already FAULTED: "`step` returns `Fault(s)` with the
  state unchanged and executes nothing" (R207). SAFE: the spec gives the engine no further behaviour. A step that RAISES
  a fault is no such stop: it answers the next state of R205, with the status FAULTED (log entry 3). -/
  | halted (info : FaultInfo)
deriving DecidableEq, Repr

/-- Why an instruction has no meaning. -/
inductive Refusal where
  /-- Raised by `exec` for an instruction the model does not give a meaning; no arm raises it. SAFE. -/
  | notModelled (mnemonic : String)
deriving DecidableEq, Repr

/-- The machine after `initialize` or `reset`: the table of R39, with FONT_ROM at its recommended default (R31, log
entry 2) and no random byte drawn (log entry 1). The zeros of V, I, sp, the stack, the keys and the timers are the
spec's decision D11 (log entry 4). -/
def State.reset : State where
  pc := 0x200
  mem := []
  disp := Vector.replicate _ (Vector.replicate _ false)
  v := Vector.replicate _ 0
  i := 0
  stack := Vector.replicate _ 0
  sp := 0
  keys := Vector.replicate _ false
  dt := 0
  st := 0
  status := .running
  fontRom := defaultFont
  draws := 0

end Sys2Proof.Machine
end

