-- ==== Sys2Proof/Machine/Ops.lean ====
section
/-! DEFINITION. The named operations on the state: memory (R11, R60 to R70), the V registers (R24), the program counter
(R21, R105), the call stack (R30), the display (R32), the keys (R33), and taking a fault (R12, R203 to R207). Every read
and write of a meaning goes through them. -/

namespace Sys2Proof.Machine

/-! ## Memory: its canonical form -/

/-- What an unlisted address reads as: its reset contents, FONT_ROM in 0..79 and 0 elsewhere (R39, R61, R70). -/
def Memory.unlisted (font : Vector Byte Config.fontSize) (a : Nat) : Byte :=
  if h : a < Config.fontSize then font[a] else 0

/-- The listed byte of an address. -/
def Memory.find : Memory → Nat → Option Byte
  | [], _ => none
  | (b, v) :: m, a => if a = b then some v else Memory.find m a

/-- The byte an address holds: the last one written, or its reset contents (R70). -/
def Memory.read (font : Vector Byte Config.fontSize) (m : Memory) (a : Nat) : Byte :=
  (m.find a).getD (Memory.unlisted font a)

/-- The list with address `a` listed as `v`, in rising order. -/
def Memory.insert : Memory → Nat → Byte → Memory
  | [], a, v => [(a, v)]
  | (b, u) :: m, a, v =>
    if a < b then (a, v) :: (b, u) :: m
    else if a = b then (a, v) :: m
    else (b, u) :: Memory.insert m a v

/-- The list without address `a`. -/
def Memory.erase (m : Memory) (a : Nat) : Memory := m.filter fun c => c.1 != a

/-- `mem[a] <- v`, keeping the canonical form: a byte equal to the reset contents is not listed. -/
def Memory.write (font : Vector Byte Config.fontSize) (m : Memory) (a : Nat) (v : Byte) : Memory :=
  if v = Memory.unlisted font a then m.erase a else m.insert a v

/-- Every address of the list is at least `lo`, and they rise strictly. -/
def Memory.risingFrom : Nat → Memory → Bool
  | _, [] => true
  | lo, (a, _) :: m => decide (lo ≤ a) && Memory.risingFrom (a + 1) m

/-- The canonical form: addresses strictly rising and below 4096, and no entry equal to what its address reads as
unlisted. Equal memories are then equal lists. -/
def Memory.wf (font : Vector Byte Config.fontSize) (m : Memory) : Bool :=
  Memory.risingFrom 0 m && m.all fun c => decide (c.1 < Config.memSize) && c.2 != Memory.unlisted font c.1

/-- The byte at an address of memory. -/
def State.byteAt (s : State) (a : Nat) : Byte := Memory.read s.fontRom s.mem a

/-! ## Raising a fault inside an instruction -/

/-- What a raised fault says beside where it was raised: its kind, and for OutOfBounds its space and address (R203). -/
structure Cause where
  kind : FaultKind
  loc : Option (Space × Nat)
deriving DecidableEq, Repr

/-- `raise OutOfBounds(addr)` of the memory primitives (R11). -/
def Cause.memory (addr : Nat) : Cause := ⟨.outOfBounds, some (.mem, addr)⟩

/-- `raise OutOfBounds(KEYS, k)` (R183). -/
def Cause.key (index : Nat) : Cause := ⟨.outOfBounds, some (.keys, index)⟩

/-- FAULT ENTRY, the one operation that takes a fault (R205): the state before the operation in every element, with the
status FAULTED and the information of R203. `s` is the state at the start of the step, so `pc` is the address of the
instruction (R206). -/
def State.enterFault (s : State) (c : Cause) (word : Option Word) : State :=
  { s with status := .faulted { kind := c.kind, pc := some s.pc, word := word, loc := c.loc } }

/-- Leaving FAULTED: there is no return from a fault, "Only `initialize` and `reset` leave FAULTED" (R207). Every element
of R20 takes its value of R39, whatever the state was (R230, R231); the model's own fields, the parameter FONT_ROM and
the count of draws, stay (log entries 1 and 2). -/
def State.reinitialize (s : State) : State :=
  { State.reset with fontRom := s.fontRom, draws := s.draws }

/-- The end of an instruction, all-or-nothing (R12): with every write of the instruction, or, where it raised a fault,
the fault entry from the state `s` at the start of the step. -/
def State.conclude (s : State) (i : Instr) : Except Cause State → Host.Outcome State Fault Refusal
  | .ok t => .next t
  | .error c => .next (s.enterFault c (some (encode i)))

/-! ## Memory access: the primitives of R11 -/

/-- `MemRead(addr, 1)`: the bound of R62 is checked on the unbounded address (R11). -/
def State.memRead (s : State) (addr : Nat) : Except Cause Byte :=
  if addr < Config.memSize then .ok (s.byteAt addr) else .error (.memory addr)

/-- `MemWrite(addr, 1, v)` (R11, R62). -/
def State.memWrite (s : State) (addr : Nat) (v : Byte) : Except Cause State :=
  if addr < Config.memSize then .ok { s with mem := Memory.write s.fontRom s.mem addr v }
  else .error (.memory addr)

/-- Read `n` bytes at `base`, `base + 1`, … in order (R63); it fails with the lowest address outside memory (R204). -/
def State.memReadMany (s : State) (base : Nat) : Nat → Except Cause (List Byte)
  | 0 => .ok []
  | n + 1 =>
    match s.memRead base with
    | .error c => .error c
    | .ok b =>
      match s.memReadMany (base + 1) n with
      | .error c => .error c
      | .ok bs => .ok (b :: bs)

/-- Write bytes at `base`, `base + 1`, … in order (R63); it fails with the lowest address outside memory (R204). -/
def State.memWriteMany (s : State) (base : Nat) : List Byte → Except Cause State
  | [] => .ok s
  | b :: bs =>
    match s.memWrite base b with
    | .error c => .error c
    | .ok t => t.memWriteMany (base + 1) bs

/-! ## V registers -/

/-- VF is V[15] (R25). -/
def vf : Idx := 15

/-- `V[k]` (R24: no register is hard-wired). -/
def State.getV (s : State) (k : Idx) : Byte := s.v[k]

/-- `V[k] <- b`. -/
def State.setV (s : State) (k : Idx) (b : Byte) : State := { s with v := s.v.set k b }

/-- `V[k] <- bs[k]` for every k below the list's length. -/
def State.setVPrefix (s : State) (bs : List Byte) : State :=
  { s with v := Vector.ofFn fun k => bs.getD k.val s.v[k] }

/-! ## Program counter -/

/-- The fetch's `pc <- trunc_16(a + 2)` (R84), which comes before execute; every meaning starts with it. -/
def State.advance (s : State) : State := { s with pc := s.pc + 2 }

/-- `skip`: `pc <- trunc_16(pc + 2)` on top of the fetch's advance (R105). -/
def State.skip (s : State) : State := { s with pc := s.pc + 2 }

/-- Skip when a condition holds (R105). -/
def State.skipIf (s : State) (c : Bool) : State := if c then s.skip else s

/-- `pc <- trunc_16(pc - 2)`, back to this instruction (R186). -/
def State.rewind (s : State) : State := { s with pc := s.pc - 2 }

/-- `pc <- target`; no target is checked (R100). -/
def State.jumpTo (s : State) (target : Word) : State := { s with pc := target }

/-! ## Call stack -/

/-- Push `pc`: `stack[sp] <- pc; sp <- sp + 1`, or StackOverflow with 16 entries in use (R30, R104). -/
def State.pushPc (s : State) : Except Cause State :=
  if h : s.sp.val < 16 then
    .ok { s with stack := s.stack.set s.sp.val s.pc, sp := ⟨s.sp.val + 1, by omega⟩ }
  else .error ⟨.stackOverflow, none⟩

/-- Pop into `pc`: `sp <- sp - 1; pc <- stack[sp]`, or StackUnderflow on an empty stack (R30, R102). -/
def State.popPc (s : State) : Except Cause State :=
  if h : s.sp.val = 0 then .error ⟨.stackUnderflow, none⟩
  else .ok { s with sp := ⟨s.sp.val - 1, by omega⟩, pc := s.stack[s.sp.val - 1]'(by omega) }

/-! ## Display -/

/-- The cell in column `x` of row `y` (R32). -/
def Display.cell (d : Display) (x : Fin 64) (y : Fin 32) : Bool := d[y][x]

/-- `disp[j] <- NOT disp[j]` (R172). -/
def Display.toggle (d : Display) (x : Fin 64) (y : Fin 32) : Display := d.set y (d[y].set x (!d[y][x]))

/-- All cells off (R171). -/
def Display.off : Display := Vector.replicate _ (Vector.replicate _ false)

/-- `disp[c + 64 * r]` (R32). -/
def State.cell (s : State) (x : Fin 64) (y : Fin 32) : Bool := Display.cell s.disp x y

/-! ## Keys -/

/-- `keys[k]` for a key index taken from a V register, or OutOfBounds with space KEYS (R183). -/
def State.keyState (s : State) (k : Nat) : Except Cause Bool :=
  if h : k < 16 then .ok s.keys[k] else .error (.key k)

/-- `lowest_pressed()`: the least k with `keys[k] = true` (R185). -/
def State.lowestPressed (s : State) : Option Idx := (List.finRange 16).find? fun k => s.keys[k]

end Sys2Proof.Machine
end

