-- ==== Sys2Proof/Machine/Flags.lean ====
section
/-! DEFINITION. Every flag computation of the spec (R26, R123, R124, R142). VF is the only flag (R28). -/

namespace Sys2Proof.Machine

/-- A flag as VF holds it: 1 or 0. -/
def flagByte (c : Bool) : Byte := if c then 1 else 0

/-- The carry of 8xy4: 1 exactly when the unbounded sum is at least 256 (R124, R129). -/
def carry (a b : Byte) : Bool := 256 ≤ a.toNat + b.toNat

/-- The inverted borrow of 8xy5 and 8xy7: 1 means no borrow, minuend >= subtrahend (R124). -/
def noBorrow (minuend subtrahend : Byte) : Bool := subtrahend.toNat ≤ minuend.toNat

/-- `a[0]`, the bit SHR shifts out (R131). -/
def shiftedOutRight (a : Byte) : Bool := a.getLsbD 0

/-- `a[7]`, the bit SHL shifts out (R133). -/
def shiftedOutLeft (a : Byte) : Bool := a.getLsbD 7

/-- `VF <- 1 if c else 0`. -/
def State.setFlag (s : State) (c : Bool) : State := s.setV vf (flagByte c)

/-- The result to V[x] first and the flag to VF second, so that with x = 15 VF ends holding the flag (R123). -/
def State.setResultAndFlag (s : State) (x : Idx) (result : Byte) (c : Bool) : State :=
  (s.setV x result).setFlag c

end Sys2Proof.Machine
end

