-- ==== Sys2Proof/Machine/Operands.lean ====
section
/-! DEFINITION. The operand forms: how a field or a register becomes the value an instruction uses (R82, R110, R150,
R153, R154, R172). V[x] and V[y] are `State.getV`; `kk` is used unchanged. -/

namespace Sys2Proof.Machine

/-- `zext_16(nnn)`, a 12-bit address as pc or I takes it (R82, R103, R151). -/
def zextNnn (nnn : BitVec 12) : Word := nnn.setWidth 16

/-- `zext_16(v)` of a byte (R9). -/
def zextByte (b : Byte) : Word := b.setWidth 16

/-- The address of the k-th byte of a transfer: `I + k`, an unbounded natural number (R62, R150). -/
def State.transferAddr (s : State) (k : Nat) : Nat := s.i.toNat + k

/-- `zext_16(V[x]) * 5`, not masked to a digit (R153). -/
def glyphAddr (b : Byte) : Word := zextByte b * 5

/-- Hundreds, tens and ones of a byte, in the order they are stored (R154). -/
def bcdDigits (b : Byte) : List Byte :=
  [BitVec.ofNat 8 (b.toNat / 100), BitVec.ofNat 8 (b.toNat / 10 % 10), BitVec.ofNat 8 (b.toNat % 10)]

/-- V[0..x], "inclusive of x" (R155). -/
def State.getVPrefix (s : State) (x : Idx) : List Byte := s.v.toList.take (x.val + 1)

/-- `(cx + col) mod 64` (R172). -/
def wrapColumn (cx : Byte) (col : Nat) : Fin 64 := ⟨(cx.toNat + col) % 64, Nat.mod_lt _ (by decide)⟩

/-- `(cy + row) mod 32` (R172). -/
def wrapRow (cy : Byte) (row : Nat) : Fin 32 := ⟨(cy.toNat + row) % 32, Nat.mod_lt _ (by decide)⟩

/-- `byte[7 - col]`: the most-significant bit is the leftmost pixel (R172). -/
def spriteBit (b : Byte) (col : Nat) : Bool := b.getLsbD (7 - col)

end Sys2Proof.Machine
end

