-- ==== Sys2Proof/Machine/Alu.lean ====
section
/-! DEFINITION. Register loads, the 8-bit ALU and the random byte (`41_alu.md`). Source registers are read before any
register is written (R120): every operand below is read from `s`. -/

namespace Sys2Proof.Machine

/-- R121: `V[x] <- kk`. -/
def execLdImm (x : Idx) (kk : Byte) (s : State) : Host.Outcome State Fault Refusal := .next (s.advance.setV x kk)

/-- R122: `V[x] <- V[x] +8 kk`, no flag. -/
def execAddImm (x : Idx) (kk : Byte) (s : State) : Host.Outcome State Fault Refusal :=
  .next (s.advance.setV x (s.getV x + kk))

/-- R125: `V[x] <- V[y]`. -/
def execLdReg (x y : Idx) (s : State) : Host.Outcome State Fault Refusal := .next (s.advance.setV x (s.getV y))

/-- R126: `V[x] <- V[x] OR V[y]`, no flag (D10). -/
def execOrReg (x y : Idx) (s : State) : Host.Outcome State Fault Refusal :=
  .next (s.advance.setV x (s.getV x ||| s.getV y))

/-- R127: `V[x] <- V[x] AND V[y]`, no flag (D10). -/
def execAndReg (x y : Idx) (s : State) : Host.Outcome State Fault Refusal :=
  .next (s.advance.setV x (s.getV x &&& s.getV y))

/-- R128: `V[x] <- V[x] XOR V[y]`, no flag (D10). -/
def execXorReg (x y : Idx) (s : State) : Host.Outcome State Fault Refusal :=
  .next (s.advance.setV x (s.getV x ^^^ s.getV y))

/-- R129: the sum modulo 256, VF the carry. -/
def execAddReg (x y : Idx) (s : State) : Host.Outcome State Fault Refusal :=
  .next (s.advance.setResultAndFlag x (s.getV x + s.getV y) (carry (s.getV x) (s.getV y)))

/-- R130: `V[x] - V[y]` modulo 256, VF the inverted borrow. -/
def execSubReg (x y : Idx) (s : State) : Host.Outcome State Fault Refusal :=
  .next (s.advance.setResultAndFlag x (s.getV x - s.getV y) (noBorrow (s.getV x) (s.getV y)))

/-- R131: V[x] shifted right, VF the bit shifted out; V[y] plays no part. -/
def execShr (x : Idx) (s : State) : Host.Outcome State Fault Refusal :=
  .next (s.advance.setResultAndFlag x (s.getV x >>> 1) (shiftedOutRight (s.getV x)))

/-- R132: `V[y] - V[x]` modulo 256, VF the inverted borrow. -/
def execSubnReg (x y : Idx) (s : State) : Host.Outcome State Fault Refusal :=
  .next (s.advance.setResultAndFlag x (s.getV y - s.getV x) (noBorrow (s.getV y) (s.getV x)))

/-- R133: V[x] shifted left, VF the bit shifted out; V[y] plays no part. -/
def execShl (x : Idx) (s : State) : Host.Outcome State Fault Refusal :=
  .next (s.advance.setResultAndFlag x (s.getV x <<< 1) (shiftedOutLeft (s.getV x)))

/-- R141 with the draw `r` given: `V[x] <- r AND kk`; the draw is counted. -/
def State.random (s : State) (r : Byte) (x : Idx) (kk : Byte) : State :=
  { s.advance.setV x (r &&& kk) with draws := s.draws + 1 }

/-- R141: `r = draw_byte()`, the free value of the model (log entry 1). -/
def execRnd (x : Idx) (kk : Byte) (s : State) : Host.Outcome State Fault Refusal :=
  .next (s.random (Config.randomByte s.draws) x kk)

end Sys2Proof.Machine
end

