-- ==== Sys2Proof/Machine/Flow.lean ====
section
/-! DEFINITION. Control flow (`40_flow.md`): no-op, jumps, call and return, skips on registers. -/

namespace Sys2Proof.Machine

/-- R101: the fetch's advance is the only effect. -/
def execNop (s : State) : Host.Outcome State Fault Refusal := .next s.advance

/-- R102: pop the return address into pc, or StackUnderflow. -/
def execRet (s : State) : Host.Outcome State Fault Refusal := s.conclude .ret s.advance.popPc

/-- R103: `pc <- zext_16(nnn)`. -/
def execJp (nnn : BitVec 12) (s : State) : Host.Outcome State Fault Refusal := .next (s.advance.jumpTo (zextNnn nnn))

/-- R104: push the advanced pc, then jump, or StackOverflow. -/
def execCall (nnn : BitVec 12) (s : State) : Host.Outcome State Fault Refusal :=
  s.conclude (.call nnn) (s.advance.pushPc.map (·.jumpTo (zextNnn nnn)))

/-- R106: skip if V[x] = kk. -/
def execSeImm (x : Idx) (kk : Byte) (s : State) : Host.Outcome State Fault Refusal :=
  .next (s.advance.skipIf (s.getV x == kk))

/-- R107: skip if V[x] != kk. -/
def execSneImm (x : Idx) (kk : Byte) (s : State) : Host.Outcome State Fault Refusal :=
  .next (s.advance.skipIf (s.getV x != kk))

/-- R108: skip if V[x] = V[y]. -/
def execSeReg (x y : Idx) (s : State) : Host.Outcome State Fault Refusal :=
  .next (s.advance.skipIf (s.getV x == s.getV y))

/-- R109: skip if V[x] != V[y]. -/
def execSneReg (x y : Idx) (s : State) : Host.Outcome State Fault Refusal :=
  .next (s.advance.skipIf (s.getV x != s.getV y))

/-- R110: `pc <- zext_16(nnn) + zext_16(V[0])`; the register is always V[0]. -/
def execJpV0 (nnn : BitVec 12) (s : State) : Host.Outcome State Fault Refusal :=
  .next (s.advance.jumpTo (zextNnn nnn + zextByte (s.getV 0)))

end Sys2Proof.Machine
end

