-- ==== Sys2Proof/Machine/IndexMemory.lean ====
section
/-! DEFINITION. The address register and the memory transfers (`42_index_memory.md`). I is unchanged by a transfer
(R150), and a transfer that leaves memory writes nothing (R12, R150). -/

namespace Sys2Proof.Machine

/-- `I <- w`. -/
def State.setI (s : State) (w : Word) : State := { s with i := w }

/-- R151: `I <- zext_16(nnn)`. -/
def execLdI (nnn : BitVec 12) (s : State) : Host.Outcome State Fault Refusal := .next (s.advance.setI (zextNnn nnn))

/-- R152: `I <- I +16 zext_16(V[x])`, no flag and no check. -/
def execAddI (x : Idx) (s : State) : Host.Outcome State Fault Refusal :=
  .next (s.advance.setI (s.i + zextByte (s.getV x)))

/-- R153: `I <- zext_16(V[x]) * 5`. -/
def execLdF (x : Idx) (s : State) : Host.Outcome State Fault Refusal := .next (s.advance.setI (glyphAddr (s.getV x)))

/-- R154: the three decimal digits of V[x] at I, I + 1, I + 2. -/
def execLdB (x : Idx) (s : State) : Host.Outcome State Fault Refusal :=
  s.conclude (.ldB x) (s.advance.memWriteMany (s.transferAddr 0) (bcdDigits (s.getV x)))

/-- R155: V[0..x] at I, …, I + x. -/
def execStoreRegs (x : Idx) (s : State) : Host.Outcome State Fault Refusal :=
  s.conclude (.storeRegs x) (s.advance.memWriteMany (s.transferAddr 0) (s.getVPrefix x))

/-- R156: V[0..x] from I, …, I + x. -/
def execLoadRegs (x : Idx) (s : State) : Host.Outcome State Fault Refusal :=
  s.conclude (.loadRegs x) ((s.memReadMany (s.transferAddr 0) (x.val + 1)).map s.advance.setVPrefix)

end Sys2Proof.Machine
end

