-- ==== Sys2Proof/Machine/KeysTimers.lean ====
section
/-! DEFINITION. The key and timer instructions (`44_timers_keys.md`). Keys and the decrement of the timers are the
host's (R180): see `HostOps.lean`. -/

namespace Sys2Proof.Machine

/-- R181: skip if the key V[x] is pressed; OutOfBounds (KEYS) if V[x] >= 16. -/
def execSkp (x : Idx) (s : State) : Host.Outcome State Fault Refusal :=
  s.conclude (.skp x) ((s.keyState (s.getV x).toNat).map s.advance.skipIf)

/-- R182: skip if the key V[x] is not pressed; OutOfBounds (KEYS) if V[x] >= 16. -/
def execSknp (x : Idx) (s : State) : Host.Outcome State Fault Refusal :=
  s.conclude (.sknp x) ((s.keyState (s.getV x).toNat).map fun pressed => s.advance.skipIf (!pressed))

/-- R184: `V[x] <- DT`. -/
def execLdVxDt (x : Idx) (s : State) : Host.Outcome State Fault Refusal := .next (s.advance.setV x s.dt)

/-- R186: the lowest pressed key to V[x], or back to this instruction. -/
def execLdVxK (x : Idx) (s : State) : Host.Outcome State Fault Refusal :=
  match s.lowestPressed with
  | some k => .next (s.advance.setV x (BitVec.ofNat 8 k.val))
  | none => .next s.advance.rewind

/-- R187: `DT <- V[x]`. -/
def execLdDtVx (x : Idx) (s : State) : Host.Outcome State Fault Refusal := .next { s.advance with dt := s.getV x }

/-- R188: `ST <- V[x]`; it fires no beep. -/
def execLdStVx (x : Idx) (s : State) : Host.Outcome State Fault Refusal := .next { s.advance with st := s.getV x }

end Sys2Proof.Machine
end

