-- ==== Sys2Proof/Machine/Screen.lean ====
section
/-! DEFINITION. The display instructions (`43_display.md`): clear, and sprite draw with collision. -/

namespace Sys2Proof.Machine

/-- R171: every cell off. -/
def execCls (s : State) : Host.Outcome State Fault Refusal := .next { s.advance with disp := Display.off }

/-- The display and `hit` so far, inside one draw (R172). -/
abbrev Drawing := Display × Bool

/-- One set bit of the sprite: an on cell is a collision, and the cell is toggled (R172). -/
def Drawing.pixel (d : Drawing) (x : Fin 64) (y : Fin 32) : Drawing :=
  (Display.toggle d.1 x y, d.2 || Display.cell d.1 x y)

/-- Columns `col`, …, `col + n - 1` of a sprite byte, on display row `y`. -/
def drawColumns (cx : Byte) (y : Fin 32) (b : Byte) (col : Nat) : Nat → Drawing → Drawing
  | 0, d => d
  | n + 1, d =>
    drawColumns cx y b (col + 1) n (if spriteBit b col then d.pixel (wrapColumn cx col) y else d)

/-- The rows of the sprite, from `row` on: eight columns each (R172). -/
def drawRows (cx cy : Byte) (row : Nat) : List Byte → Drawing → Drawing
  | [], d => d
  | b :: bs, d => drawRows cx cy (row + 1) bs (drawColumns cx (wrapRow cy row) b 0 8 d)

/-- R172 after its bytes are read: draw at (V[x], V[y]), both read before VF is written, then `VF <- hit`. -/
def State.draw (s : State) (x y : Idx) (sprite : List Byte) : State :=
  let d := drawRows (s.getV x) (s.getV y) 0 sprite (s.disp, false)
  { s with disp := d.1 }.setFlag d.2

/-- R172: read n bytes at I, then draw; OutOfBounds leaves the display and VF as they were. -/
def execDrw (x y n : Idx) (s : State) : Host.Outcome State Fault Refusal :=
  s.conclude (.drw x y n) ((s.memReadMany (s.transferAddr 0) n.val).map (s.advance.draw x y))

end Sys2Proof.Machine
end

