-- ==== Sys2Proof/Machine/Fetch.lean ====
section
/-! DEFINITION. Fetching an instruction word (R84) and reading the instruction from it (R85, R204). -/

namespace Sys2Proof.Machine

/-- The word at pc (R84): the bytes at `pc` and `pc + 1`, an unbounded natural number, in that order; the byte at `pc` is
the high one. -/
def State.fetchWord (s : State) : Except Cause Word :=
  match s.memRead s.pc.toNat with
  | .error c => .error c
  | .ok high =>
    match s.memRead (s.pc.toNat + 1) with
    | .error c => .error c
    | .ok low => .ok (wordOfBytes high low)

/-- What the start of a step finds at pc. -/
inductive Fetched where
  /-- A fault of the fetch or of the decoder, with the word where one was fetched (R203). -/
  | fault (c : Cause) (word : Option Word)
  /-- The word at pc and the instruction it decodes to. -/
  | instr (w : Word) (i : Instr)
deriving DecidableEq, Repr

/-- Fetch and decode (R84, R85): the fetch's faults come before Unimplemented (R204). -/
def State.fetch (s : State) : Fetched :=
  match s.fetchWord with
  | .error c => .fault c none
  | .ok w =>
    match decode w with
    | none => .fault ⟨.unimplemented, none⟩ (some w)
    | some i => .instr w i

/-- Put a word where the next step fetches: its high byte at `pc`, its low byte at `pc + 1` (R64). A word that does not
fit below 4096 is not placed. -/
def State.placeWord (s : State) (w : Word) : State :=
  match s.memWriteMany s.pc.toNat [highByte w, lowByte w] with
  | .ok t => t
  | .error _ => s

end Sys2Proof.Machine
end

