-- ==== Sys2Proof/Machine/Step.lean ====
section
/-! DEFINITION. One step: `Step(s, r)` of `30_encoding.md` R90, with r the model's free value (log entry 1). -/

namespace Sys2Proof.Machine

/-- One fetch-decode-execute cycle (R90). FAULTED is sticky (R207); a fault of the fetch or the decoder is entered from
the state unchanged (R205); otherwise the instruction is executed. -/
def step (s : State) : Host.Outcome State Fault Refusal :=
  match s.status with
  | .faulted info => .fault (.halted info)
  | .running =>
    match s.fetch with
    | .fault c word => .next (s.enterFault c word)
    | .instr _ i => exec i s

/-- `Step(s, r)` of R90 with the random byte r given from outside: r is used only if the instruction is Cxkk. -/
def stepWith (r : Byte) (s : State) : Host.Outcome State Fault Refusal :=
  match s.status, s.fetch with
  | .running, .instr _ (.rnd x kk) => .next (s.random r x kk)
  | _, _ => step s

/-- `s` with the instruction word of bits `w` stored where `step` fetches next. The table numbers bit 0 as the least
significant bit of the one 16-bit word, and every instruction has 16 bits (R80), so `nbits` adds nothing. From reset
this stands for the `load` of a one-word image (log entry 7). -/
def State.withFetchWord (s : State) (_nbits w : Nat) : State := s.placeWord (BitVec.ofNat 16 w)

end Sys2Proof.Machine
end

