-- ==== Sys2Proof/Machine/HostOps.lean ====
section
/-! DEFINITION. The host's seven operations, each one atomic transaction (`60_exceptions.md` R215 to R222,
`70_reset_and_hazards.md` R230 to R236). -/

namespace Sys2Proof.Machine

/-- The operations of R215 with their inputs. A key index is 4 bits wide (R219); `step` takes the random byte (R217). -/
inductive HostOp where
  /-- `initialize`: the table of R39 (R231). -/
  | init
  | reset
  | load (image : List Byte)
  | step (r : Byte)
  | decayTimers
  | setKey (index : Idx) (pressed : Bool)
  | readDisplay
deriving DecidableEq, Repr

/-- The outputs of R215. -/
inductive HostResult where
  /-- Success with no output. -/
  | ok
  /-- The explicit failure result of `step` and `load` (R200). -/
  | fault (info : FaultInfo)
  /-- The beep of `decay_timers` (R218). -/
  | beep (fired : Bool)
  /-- The 2048 cells of `read_display` in row-major order (R220). -/
  | display (cells : List Bool)
deriving DecidableEq, Repr

/-- The bytes `mem[base + k] <- image[k]`. -/
def Memory.writeMany (font : Vector Byte Config.fontSize) (m : Memory) (base : Nat) : List Byte → Memory
  | [] => m
  | b :: bs => Memory.writeMany font (Memory.write font m base b) (base + 1) bs

/-- The information of the fault of `load` (R203, R204, R233): no pc, no word, address 4096. -/
def loadFaultInfo : FaultInfo :=
  { kind := .outOfBounds, pc := none, word := none, loc := some (.mem, Config.memSize) }

/-- `load` (R232, R233): the image at 0x200 and pc there, nothing else; an image that does not fit is a fault and writes
no byte; while FAULTED it is refused (R207). -/
def State.load (s : State) (image : List Byte) : State × HostResult :=
  match s.status with
  | .faulted info => (s, .fault info)
  | .running =>
    if imageFits image then
      ({ s with mem := Memory.writeMany s.fontRom s.mem Config.programBase image, pc := 0x200 }, .ok)
    else ({ s with status := .faulted loadFaultInfo }, .fault loadFaultInfo)

/-- A timer's decrement, floored at 0 (R218). -/
def decayed (t : Byte) : Byte := if 0 < t.toNat then t - 1 else t

/-- `decay_timers` (R218): each timer once; the beep is the call that takes ST from 1 to 0. It works in both statuses. -/
def State.decayTimers (s : State) : State × Bool :=
  ({ s with dt := decayed s.dt, st := decayed s.st }, s.st == 1)

/-- `set_key` (R219). -/
def State.setKey (s : State) (index : Idx) (pressed : Bool) : State :=
  { s with keys := s.keys.set index pressed }

/-- `read_display`: row-major, index `x + 64*y` (R220). -/
def State.readDisplay (s : State) : List Bool := (s.disp.toList.map (·.toList)).flatten

/-- `step(r)` as the host calls it (R216): Ok, or Fault with the information of R203, and the state after it. (The last
arm never applies: no instruction is refused.) -/
def State.hostStep (s : State) (r : Byte) : State × HostResult :=
  match stepWith r s with
  | .next t =>
    match t.status with
    | .running => (t, .ok)
    | .faulted info => (t, .fault info)
  | .fault (.halted info) => (s, .fault info)
  | .refused _ => (s, .ok)

/-- One transaction of R215: the state after it and its output. -/
def transact (op : HostOp) (s : State) : State × HostResult :=
  match op with
  | .init => (s.reinitialize, .ok)
  | .reset => (s.reinitialize, .ok)
  | .load image => s.load image
  | .step r => s.hostStep r
  | .decayTimers => (s.decayTimers.1, .beep s.decayTimers.2)
  | .setKey index pressed => (s.setKey index pressed, .ok)
  | .readDisplay => (s, .display s.readDisplay)

/-- Any sequence of operations, in any order (R221): the state after it and the outputs in order. -/
def transactAll : List HostOp → State → State × List HostResult
  | [], s => (s, [])
  | op :: ops, s =>
    let (t, out) := transact op s
    let (u, outs) := transactAll ops t
    (u, out :: outs)

/-- One frame of the expected host schedule (R222): `step` INSTRUCTIONS_PER_FRAME times, here once for each random
byte given, `decay_timers` once, then the display is read. No rule rests on it. -/
def frameSchedule (draws : List Byte) : List HostOp :=
  draws.map .step ++ [.decayTimers, .readDisplay]

end Sys2Proof.Machine
end

