-- ==== Sys2Proof/Safety.lean ====
section
/-! DEFINITION. The terms claims use: the frame of an instruction, the encoding of an instruction, the cells a sprite
covers, a safe state, and the invariant every transaction keeps. -/

namespace Sys2Proof.Machine

/-- What an instruction may write beside pc. By default nothing. -/
structure Writes where
  regs : Idx → Bool := fun _ => false
  index : Bool := false
  mem : Nat → Bool := fun _ => false
  disp : Bool := false
  stackSlot : Idx → Bool := fun _ => false
  sp : Bool := false
  dt : Bool := false
  st : Bool := false
  draws : Bool := false

/-- `t` differs from `s` in nothing but pc and what `w` lists. No instruction that completes writes the keys or the
status (R33, R37). `draws` and `fontRom` are the model's own fields (log entries 1 and 2). -/
structure Frame (s t : State) (w : Writes) : Prop where
  regs : ∀ k, w.regs k = false → t.getV k = s.getV k
  index : w.index = false → t.i = s.i
  mem : ∀ a, w.mem a = false → t.byteAt a = s.byteAt a
  disp : w.disp = false → ∀ x y, t.cell x y = s.cell x y
  stackSlot : ∀ k, w.stackSlot k = false → t.stack[k] = s.stack[k]
  sp : w.sp = false → t.sp = s.sp
  dt : w.dt = false → t.dt = s.dt
  st : w.st = false → t.st = s.st
  draws : w.draws = false → t.draws = s.draws
  keys : t.keys = s.keys
  status : t.status = s.status
  fontRom : t.fontRom = s.fontRom

/-- The words with `(w AND mask) = match` are the instruction `f w` (R86). -/
def Encodes (mask pattern : Word) (f : Word → Instr) : Prop :=
  ∀ w : Word, w &&& mask = pattern → decode w = some (f w)

/-- Fault entry in an instruction at `s.pc` whose word is `word`, written out from R203 and R205. -/
def FaultAt (s : State) (kind : FaultKind) (word : Word) (loc : Option (Space × Nat)) : State :=
  { s with status := .faulted { kind := kind, pc := some s.pc, word := some word, loc := loc } }

/-- Some set bit of the sprite of `Dxyn` falls on the cell in column c of row r, with both coordinates wrapped (R172). -/
def SpriteCovers (s : State) (x y n : Idx) (c : Fin 64) (r : Fin 32) : Prop :=
  ∃ row col : Nat, row < n.val ∧ col < 8 ∧ (s.byteAt (s.i.toNat + row)).getLsbD (7 - col) = true ∧
    ((s.getV x).toNat + col) % 64 = c.val ∧ ((s.getV y).toNat + row) % 32 = r.val

/-- A safe state: no fault has been raised (R200, R241). -/
def State.Safe (s : State) : Prop := s.status = .running

/-- The rows of the table of R203: what each kind of fault records. -/
def FaultInfo.Coherent (f : FaultInfo) : Prop :=
  match f.kind with
  | .outOfBounds =>
    (f.pc = none → f.word = none ∧ f.loc = some (.mem, 4096)) ∧
    ((∃ a, 4096 ≤ a ∧ f.loc = some (.mem, a)) ∨ (∃ k, 16 ≤ k ∧ k < 256 ∧ f.loc = some (.keys, k) ∧ f.word ≠ none))
  | .stackOverflow => f.pc ≠ none ∧ (∃ nnn, f.word = some (encode (.call nnn))) ∧ f.loc = none
  | .stackUnderflow => f.pc ≠ none ∧ f.word = some 0x00EE ∧ f.loc = none
  | .unimplemented => f.pc ≠ none ∧ (∃ w, f.word = some w ∧ legalWord w = false) ∧ f.loc = none

/-- The invariant: memory is canonical, pc and the return addresses in use keep the bounds of R23 and D25, and a
recorded fault is a row of R203 raised at the pc the state still holds (R206). -/
structure State.Inv (s : State) : Prop where
  mem : Memory.wf s.fontRom s.mem = true
  pc : s.pc.toNat ≤ 0x10FE
  stack : ∀ k : Idx, k.val < s.sp.val → (s.stack[k]).toNat ≤ 4096
  status : ∀ info, s.status = .faulted info → info.Coherent ∧ (info.pc = none ∨ info.pc = some s.pc)

end Sys2Proof.Machine
end

