-- ==== Sys2Proof/Certificates/Slice0/Obligations.lean ====
section
/-! DEFINITION. The statements for the provers, in the order of the spec's files. A statement of an instruction says its
encoding (`Encodes`), that `exec` answers a next state and which, its flag, its frame (`Frame`: everything the statement
does not list is unchanged), and, where it can fault, the fault entry (`FaultAt`). That `exec`
includes the fetch's advance of pc by 2 (R84) is the model's choice (log entry 6). The clauses of `Frame` on `fontRom` and
`draws` are about the model's own fields (log entries 2 and 1). -/

open Sys2Proof Sys2Proof.Machine

/-! ## State and reset (10_state.md, 70_reset_and_hazards.md) -/

/-- R39, R230, R231: `initialize` and `reset`, from ANY state, give every element the value of the table of R39. The rows
of V, I, sp, the stack, the keys and the timers are the spec's own decision D11 (log entry 4); FONT_ROM is the parameter
the state carries (log entry 2).
Rests on the spec's own decisions D11, D3; log entries 4, 10. -/
def Obligations.ResetGivesTheTable : Prop :=
  ∀ (s : State) (op : HostOp), op = .init ∨ op = .reset →
    ∃ t, transact op s = (t, .ok) ∧
      t.pc = 0x200 ∧ (∀ a : Fin 80, t.byteAt a.val = s.fontRom[a]) ∧
      (∀ a, 80 ≤ a → a < 4096 → t.byteAt a = 0) ∧ (∀ x y, t.cell x y = false) ∧
      (∀ k, t.getV k = 0) ∧ t.i = 0 ∧ t.sp = 0 ∧ (∀ k : Idx, t.stack[k] = 0) ∧ (∀ k : Idx, t.keys[k] = false) ∧
      t.dt = 0 ∧ t.st = 0 ∧ t.status = .running

/-- R23 (marked derived by the spec), R22: from reset, no sequence of host operations takes pc above 0x10FE, so pc never
wraps, and 0x10FE is reached.
Rests on the spec's own decisions D5, D11, D12, D24; log entries 4, 11. -/
def Obligations.PcNeverExceeds0x10FE : Prop :=
  (∀ ops : List HostOp, (transactAll ops State.reset).1.pc.toNat ≤ 0x10FE) ∧
  ∃ ops : List HostOp, (transactAll ops State.reset).1.pc = 0x10FE

/-! ## Memory (20_memory.md) -/

/-- R11, R62: `MemRead` and `MemWrite` on one byte: inside memory a write is seen by a read of its address and of no
other and changes no other element; at 4096 and above both raise OutOfBounds(addr) and access nothing.
Rests on the spec's own decision D6; log entry 11. -/
def Obligations.MemoryPrimitives : Prop :=
  ∀ (s : State) (a : Nat) (b : Byte),
    (a < 4096 → s.memRead a = .ok (s.byteAt a) ∧
      ∃ t, s.memWrite a b = .ok t ∧ t.byteAt a = b ∧ (∀ c, c ≠ a → t.byteAt c = s.byteAt c) ∧
        t = { s with mem := t.mem }) ∧
    (4096 ≤ a → s.memRead a = .error ⟨.outOfBounds, some (.mem, a)⟩ ∧
      s.memWrite a b = .error ⟨.outOfBounds, some (.mem, a)⟩)

/-- The model's canonical form of memory (log entry 5): two canonical memories over the same reset contents that read the
same at every address are the same list. -/
def Obligations.CanonicalMemoriesThatReadAlikeAreEqual : Prop :=
  ∀ (font : Vector Byte 80) (m n : Memory), Memory.wf font m = true → Memory.wf font n = true →
    (∀ a, Memory.read font m a = Memory.read font n a) → m = n

/-- R65, R73: bytes that LD [I], Vx stores at the next instruction's address are the word the very next step fetches, big
end first, and it executes the instruction they decode to.
Rests on the spec's own decision D21; log entry 11. -/
def Obligations.StoredCodeIsFetchedNext : Prop :=
  ∀ (s : State) (x : Idx), s.i.toNat = s.pc.toNat + 2 → 1 ≤ x.val → s.i.toNat + x.val < 4096 →
    ∃ t, exec (.storeRegs x) s = .next t ∧ t.fetchWord = .ok (wordOfBytes (s.getV 0) (s.getV 1)) ∧
      (∀ i, s.status = .running → decode (wordOfBytes (s.getV 0) (s.getV 1)) = some i → step t = exec i t)

/-! ## Encoding (30_encoding.md) -/

/-- Words of the spec's vectors, written out digit by digit from R81 and R86, decode to their instructions, and three
illegal words to none. -/
def Obligations.DecodeKnownWords : Prop :=
  decode 0x0000 = some .nop ∧ decode 0x00EE = some .ret ∧ decode 0x2ABC = some (.call 0xABC) ∧
  decode 0x3342 = some (.seImm 3 0x42) ∧ decode 0x8125 = some (.subReg 1 2) ∧ decode 0x840E = some (.shl 4) ∧
  decode 0xD012 = some (.drw 0 1 2) ∧ decode 0xE2A1 = some (.sknp 2) ∧ decode 0xF333 = some (.ldB 3) ∧
  decode 0xF265 = some (.loadRegs 2) ∧ decode 0x5121 = none ∧ decode 0x8128 = none ∧ decode 0x0123 = none

/-- R81, R82, R85, R86, R96: the fields are the nibbles of the word; at most one row of the opcode map matches a word; and
the decoder gives an instruction exactly where a row matches.
Rests on the spec's own decision D23; log entry 11. -/
def Obligations.DecoderFollowsTheOpcodeMap : Prop :=
  ∀ w : Word,
    (fieldFamily w).toNat = w.toNat / 4096 ∧ (fieldX w).val = w.toNat / 256 % 16 ∧
    (fieldY w).val = w.toNat / 16 % 16 ∧ (fieldN w).val = w.toNat % 16 ∧
    (fieldKk w).toNat = w.toNat % 256 ∧ (fieldNnn w).toNat = w.toNat % 4096 ∧
    (opcodeMap.filter (·.matchesWord w)).length ≤ 1 ∧ (decode w).isSome = legalWord w

/-- Tier 3, (a): every instruction with every operand is what the decoder reads from its encoded bytes, and it reads no
byte more. -/
def Obligations.DecodeOfEncodeIsTheInstruction : Prop :=
  ∀ (i : Instr) (rest : List Byte), decode (encode i) = some i ∧ decodeBytes (encodeBytes i ++ rest) = .ok (i, rest)

/-- R92: a word that decodes is the encoding of its instruction, but for the ignored y field of SHR and SHL, where all
sixteen values of y give the same instruction. That `encode` writes 0 in that field (`w &&& 0xFF0F`) is the model's choice
(log entry 8), no part of R92. -/
def Obligations.OnlyTheShiftsIgnoreAField : Prop :=
  (∀ (w : Word) (i : Instr), decode w = some i →
    encode i = w ∨ ∃ x, (i = .shr x ∨ i = .shl x) ∧ encode i = w &&& 0xFF0F) ∧
  ∀ x y : Idx, decode (wordXyn 0x8 x y 0x6) = some (.shr x) ∧ decode (wordXyn 0x8 x y 0xE) = some (.shl x)

/-- R84, R90: with pc and pc + 1 in memory and the status RUNNING, a step is `exec` of the instruction that the two bytes
at pc decode to, the byte at pc first; `step` adds nothing to it. That the advance of pc past the two bytes is a part of
`exec`, where the per-instruction statements say it, is the model's choice (log entry 6). The fetch has no alignment rule
and its addresses do not wrap.
Rests on the spec's own decisions D6, D16; log entry 11. -/
def Obligations.StepRunsTheDecodedInstruction : Prop :=
  ∀ (s : State) (i : Instr) (rest : List Byte), s.status = .running → s.pc.toNat + 1 < 4096 →
    decodeBytes (s.byteAt s.pc.toNat :: s.byteAt (s.pc.toNat + 1) :: rest) = .ok (i, rest) → step s = exec i s

/-- R84, R203, R204: a fetch that leaves memory enters OutOfBounds with no word and the lowest address outside memory:
pc itself from 4096 on, and 4096 for pc = 4095.
Rests on the spec's own decisions D2, D4, D5, D26; log entries 10, 11. -/
def Obligations.FetchOutsideMemoryFaults : Prop :=
  ∀ s : State, s.status = .running → 4095 ≤ s.pc.toNat →
    step s = .next
      { s with status := .faulted ⟨.outOfBounds, some s.pc, none, some (.mem, max s.pc.toNat 4096)⟩ }

/-- R91: a word that no row of the map matches enters Unimplemented with that word, and nothing else changes; every other
word is an instruction.
Rests on the spec's own decisions D2, D4, D23; log entries 10, 11. -/
def Obligations.IllegalWordIsUnimplemented : Prop :=
  (∀ (s : State) (w : Word), s.status = .running → s.fetchWord = .ok w → legalWord w = false →
    step s = .next (FaultAt s .unimplemented w none)) ∧
  ∀ w : Word, legalWord w = true → ∃ i, decode w = some i

/-! ## Control flow (40_flow.md) -/

/-- R101: NOP changes pc only. -/
def Obligations.NopOnlyAdvances : Prop :=
  Encodes 0xFFFF 0x0000 (fun _ => .nop) ∧
  ∀ s : State, ∃ t, exec .nop s = .next t ∧ t.pc = s.pc + 2 ∧ Frame s t {}

/-- R102: RET pops the most recent return address into pc; the entry keeps its value; with no entry, StackUnderflow.
Rests on the spec's own decisions D2, D4, D15; log entries 10, 11. -/
def Obligations.RetPopsOrUnderflows : Prop :=
  Encodes 0xFFFF 0x00EE (fun _ => .ret) ∧
  ∀ s : State,
    (∀ j : Idx, s.sp.val = j.val + 1 →
      ∃ t, exec .ret s = .next t ∧ t.sp.val = j.val ∧ t.pc = s.stack[j] ∧ Frame s t { sp := true }) ∧
    (s.sp.val = 0 → exec .ret s = .next (FaultAt s .stackUnderflow 0x00EE none))

/-- R103, R110: JP replaces pc with nnn, and JP V0 with nnn + V[0], at most 0x10FE; neither checks its target.
Rests on the spec's own decision D5; log entry 11. -/
def Obligations.JumpsReplacePc : Prop :=
  Encodes 0xF000 0x1000 (fun w => .jp (fieldNnn w)) ∧ Encodes 0xF000 0xB000 (fun w => .jpV0 (fieldNnn w)) ∧
  ∀ (s : State) (nnn : BitVec 12),
    (∃ t, exec (.jp nnn) s = .next t ∧ t.pc.toNat = nnn.toNat ∧ Frame s t {}) ∧
    (∃ t, exec (.jpV0 nnn) s = .next t ∧ t.pc.toNat = nnn.toNat + (s.getV 0).toNat ∧ t.pc.toNat ≤ 0x10FE ∧
      Frame s t {})

/-- R104: CALL pushes the address after it and jumps; with 16 entries in use, StackOverflow.
Rests on the spec's own decisions D2, D4, D15; log entries 10, 11. -/
def Obligations.CallPushesOrOverflows : Prop :=
  Encodes 0xF000 0x2000 (fun w => .call (fieldNnn w)) ∧
  ∀ (s : State) (nnn : BitVec 12),
    (∀ j : Idx, s.sp.val = j.val →
      ∃ t, exec (.call nnn) s = .next t ∧ t.stack[j] = s.pc + 2 ∧ t.sp.val = j.val + 1 ∧
        t.pc.toNat = nnn.toNat ∧ Frame s t { stackSlot := fun k => k == j, sp := true }) ∧
    (s.sp.val = 16 → exec (.call nnn) s = .next (FaultAt s .stackOverflow (wordNnn 0x2 nnn) none))

/-- R105, R106, R107: SE and SNE with an immediate skip two bytes more when V[x] equals, or differs from, kk. -/
def Obligations.SkipsOnAnImmediate : Prop :=
  Encodes 0xF000 0x3000 (fun w => .seImm (fieldX w) (fieldKk w)) ∧
  Encodes 0xF000 0x4000 (fun w => .sneImm (fieldX w) (fieldKk w)) ∧
  ∀ (s : State) (x : Idx) (kk : Byte),
    (∃ t, exec (.seImm x kk) s = .next t ∧
      (s.getV x = kk → t.pc = s.pc + 4) ∧ (s.getV x ≠ kk → t.pc = s.pc + 2) ∧ Frame s t {}) ∧
    (∃ t, exec (.sneImm x kk) s = .next t ∧
      (s.getV x ≠ kk → t.pc = s.pc + 4) ∧ (s.getV x = kk → t.pc = s.pc + 2) ∧ Frame s t {})

/-- R105, R108, R109: SE and SNE on two registers. -/
def Obligations.SkipsOnTwoRegisters : Prop :=
  Encodes 0xF00F 0x5000 (fun w => .seReg (fieldX w) (fieldY w)) ∧
  Encodes 0xF00F 0x9000 (fun w => .sneReg (fieldX w) (fieldY w)) ∧
  ∀ (s : State) (x y : Idx),
    (∃ t, exec (.seReg x y) s = .next t ∧
      (s.getV x = s.getV y → t.pc = s.pc + 4) ∧ (s.getV x ≠ s.getV y → t.pc = s.pc + 2) ∧ Frame s t {}) ∧
    (∃ t, exec (.sneReg x y) s = .next t ∧
      (s.getV x ≠ s.getV y → t.pc = s.pc + 4) ∧ (s.getV x = s.getV y → t.pc = s.pc + 2) ∧ Frame s t {})

/-- R111 (marked derived by the spec), R104, R102: the RET that meets the stack a CALL left gives back the address
after that CALL and the stack pointer before it.
Rests on the spec's own decision D15; log entry 11. -/
def Obligations.RetReturnsToAfterTheCall : Prop :=
  ∀ (s t u : State) (nnn : BitVec 12), s.sp.val < 16 → exec (.call nnn) s = .next t →
    u.stack = t.stack → u.sp = t.sp → ∃ v, exec .ret u = .next v ∧ v.pc = s.pc + 2 ∧ v.sp = s.sp

/-! ## Register loads and the ALU (41_alu.md) -/

/-- R121, R122, R125: the plain register writes; VF changes only as the destination x = 15. -/
def Obligations.LoadsAndImmediateAdd : Prop :=
  Encodes 0xF000 0x6000 (fun w => .ldImm (fieldX w) (fieldKk w)) ∧
  Encodes 0xF000 0x7000 (fun w => .addImm (fieldX w) (fieldKk w)) ∧
  Encodes 0xF00F 0x8000 (fun w => .ldReg (fieldX w) (fieldY w)) ∧
  ∀ (s : State) (x y : Idx) (kk : Byte),
    (∃ t, exec (.ldImm x kk) s = .next t ∧ t.getV x = kk ∧ t.pc = s.pc + 2 ∧ Frame s t { regs := fun k => k == x }) ∧
    (∃ t, exec (.addImm x kk) s = .next t ∧ (t.getV x).toNat = ((s.getV x).toNat + kk.toNat) % 256 ∧
      t.pc = s.pc + 2 ∧ Frame s t { regs := fun k => k == x }) ∧
    (∃ t, exec (.ldReg x y) s = .next t ∧ t.getV x = s.getV y ∧ t.pc = s.pc + 2 ∧
      Frame s t { regs := fun k => k == x })

/-- R126, R127, R128: the logic operations, bit by bit; VF unchanged unless it is the destination.
Rests on the spec's own decision D10; log entry 11. -/
def Obligations.LogicOperations : Prop :=
  Encodes 0xF00F 0x8001 (fun w => .orReg (fieldX w) (fieldY w)) ∧
  Encodes 0xF00F 0x8002 (fun w => .andReg (fieldX w) (fieldY w)) ∧
  Encodes 0xF00F 0x8003 (fun w => .xorReg (fieldX w) (fieldY w)) ∧
  ∀ (s : State) (x y : Idx),
    (∃ t, exec (.orReg x y) s = .next t ∧
      (∀ b < 8, (t.getV x).getLsbD b = ((s.getV x).getLsbD b || (s.getV y).getLsbD b)) ∧
      t.pc = s.pc + 2 ∧ Frame s t { regs := fun k => k == x }) ∧
    (∃ t, exec (.andReg x y) s = .next t ∧
      (∀ b < 8, (t.getV x).getLsbD b = ((s.getV x).getLsbD b && (s.getV y).getLsbD b)) ∧
      t.pc = s.pc + 2 ∧ Frame s t { regs := fun k => k == x }) ∧
    (∃ t, exec (.xorReg x y) s = .next t ∧
      (∀ b < 8, (t.getV x).getLsbD b = ((s.getV x).getLsbD b ^^ (s.getV y).getLsbD b)) ∧
      t.pc = s.pc + 2 ∧ Frame s t { regs := fun k => k == x })

/-- R129, R123, R124: the sum modulo 256 and the carry, the flag last.
Rests on the spec's own decision D9; log entry 11. -/
def Obligations.AddWithCarry : Prop :=
  Encodes 0xF00F 0x8004 (fun w => .addReg (fieldX w) (fieldY w)) ∧
  ∀ (s : State) (x y : Idx), ∃ t, exec (.addReg x y) s = .next t ∧
    (x ≠ 15 → (t.getV x).toNat = ((s.getV x).toNat + (s.getV y).toNat) % 256) ∧
    (256 ≤ (s.getV x).toNat + (s.getV y).toNat → t.getV 15 = 1) ∧
    ((s.getV x).toNat + (s.getV y).toNat < 256 → t.getV 15 = 0) ∧
    t.pc = s.pc + 2 ∧ Frame s t { regs := fun k => k == x || k == 15 }

/-- R130, R132, R123, R124: the two differences modulo 256 and the inverted borrow, the flag last.
Rests on the spec's own decision D9; log entry 11. -/
def Obligations.SubtractWithInvertedBorrow : Prop :=
  Encodes 0xF00F 0x8005 (fun w => .subReg (fieldX w) (fieldY w)) ∧
  Encodes 0xF00F 0x8007 (fun w => .subnReg (fieldX w) (fieldY w)) ∧
  ∀ (s : State) (x y : Idx),
    (∃ t, exec (.subReg x y) s = .next t ∧
      (x ≠ 15 → ((t.getV x).toNat : Int) = ((s.getV x).toNat - (s.getV y).toNat : Int) % 256) ∧
      ((s.getV y).toNat ≤ (s.getV x).toNat → t.getV 15 = 1) ∧
      ((s.getV x).toNat < (s.getV y).toNat → t.getV 15 = 0) ∧
      t.pc = s.pc + 2 ∧ Frame s t { regs := fun k => k == x || k == 15 }) ∧
    (∃ t, exec (.subnReg x y) s = .next t ∧
      (x ≠ 15 → ((t.getV x).toNat : Int) = ((s.getV y).toNat - (s.getV x).toNat : Int) % 256) ∧
      ((s.getV x).toNat ≤ (s.getV y).toNat → t.getV 15 = 1) ∧
      ((s.getV y).toNat < (s.getV x).toNat → t.getV 15 = 0) ∧
      t.pc = s.pc + 2 ∧ Frame s t { regs := fun k => k == x || k == 15 })

/-- R131, R133, R123: the shifts of V[x], whatever the y field of the word, and the bit shifted out, the flag last.
Rests on the spec's own decision D9; log entry 11. -/
def Obligations.ShiftsReportTheBitShiftedOut : Prop :=
  Encodes 0xF00F 0x8006 (fun w => .shr (fieldX w)) ∧ Encodes 0xF00F 0x800E (fun w => .shl (fieldX w)) ∧
  ∀ (s : State) (x : Idx),
    (∃ t, exec (.shr x) s = .next t ∧ (x ≠ 15 → (t.getV x).toNat = (s.getV x).toNat / 2) ∧
      (t.getV 15).toNat = (s.getV x).toNat % 2 ∧ t.pc = s.pc + 2 ∧
      Frame s t { regs := fun k => k == x || k == 15 }) ∧
    (∃ t, exec (.shl x) s = .next t ∧ (x ≠ 15 → (t.getV x).toNat = 2 * (s.getV x).toNat % 256) ∧
      (t.getV 15).toNat = (s.getV x).toNat / 128 ∧ t.pc = s.pc + 2 ∧
      Frame s t { regs := fun k => k == x || k == 15 })

/-- R141, R217: `Cxkk` gives V[x] the random byte masked by kk, bit by bit, whatever the byte is: with r given
(`stepWith`) it is r, and in `exec` it is the model's free value (log entry 1). No bit outside kk is ever set.
Rests on the spec's own decision D17; log entry 1. -/
def Obligations.RandomByteIsMasked : Prop :=
  Encodes 0xF000 0xC000 (fun w => .rnd (fieldX w) (fieldKk w)) ∧
  (∀ (s : State) (x : Idx) (kk : Byte), ∃ t, exec (.rnd x kk) s = .next t ∧
    (∀ b < 8, (t.getV x).getLsbD b = ((Config.randomByte s.draws).getLsbD b && kk.getLsbD b)) ∧
    t.pc = s.pc + 2 ∧ t.draws = s.draws + 1 ∧ Frame s t { regs := fun k => k == x, draws := true }) ∧
  ∀ (r : Byte) (s : State) (w : Word) (x : Idx) (kk : Byte), s.status = .running → s.fetch = .instr w (.rnd x kk) →
    ∃ t, stepWith r s = .next t ∧ (∀ b < 8, (t.getV x).getLsbD b = (r.getLsbD b && kk.getLsbD b)) ∧
      t.pc = s.pc + 2 ∧ Frame s t { regs := fun k => k == x, draws := true }

/-- R13, R36, R217: the random byte of a step matters to `Cxkk` only; and `step` is `Step(s, r)` with r the free value.
Rests on the spec's own decision D17; log entry 1. -/
def Obligations.RandomByteMattersToRndOnly : Prop :=
  (∀ (s : State) (r q : Byte), (∀ w x kk, s.fetch ≠ .instr w (.rnd x kk)) → stepWith r s = stepWith q s) ∧
  ∀ s : State, stepWith (Config.randomByte s.draws) s = step s

/-! ## Address register and memory transfers (42_index_memory.md) -/

/-- R151, R152, R153: the three writers of I.
Rests on the spec's own decision D10; log entry 11. -/
def Obligations.AddressRegisterWrites : Prop :=
  Encodes 0xF000 0xA000 (fun w => .ldI (fieldNnn w)) ∧ Encodes 0xF0FF 0xF01E (fun w => .addI (fieldX w)) ∧
  Encodes 0xF0FF 0xF029 (fun w => .ldF (fieldX w)) ∧
  ∀ (s : State) (x : Idx) (nnn : BitVec 12),
    (∃ t, exec (.ldI nnn) s = .next t ∧ t.i.toNat = nnn.toNat ∧ t.pc = s.pc + 2 ∧ Frame s t { index := true }) ∧
    (∃ t, exec (.addI x) s = .next t ∧ t.i.toNat = (s.i.toNat + (s.getV x).toNat) % 65536 ∧ t.pc = s.pc + 2 ∧
      Frame s t { index := true }) ∧
    (∃ t, exec (.ldF x) s = .next t ∧ t.i.toNat = (s.getV x).toNat * 5 ∧ t.pc = s.pc + 2 ∧
      Frame s t { index := true })

/-- R154: the three decimal digits of V[x] at I, I + 1, I + 2, and no other byte; a transfer past 4095 writes nothing and
enters OutOfBounds with the lowest address outside memory.
Rests on the spec's own decisions D2, D4, D6, D26; log entries 10, 11. -/
def Obligations.DecimalDigitsAreStored : Prop :=
  Encodes 0xF0FF 0xF033 (fun w => .ldB (fieldX w)) ∧
  ∀ (s : State) (x : Idx),
    (s.i.toNat + 2 < 4096 → ∃ t, exec (.ldB x) s = .next t ∧
      (t.byteAt (s.transferAddr 0)).toNat = (s.getV x).toNat / 100 ∧
      (t.byteAt (s.transferAddr 1)).toNat = (s.getV x).toNat / 10 % 10 ∧
      (t.byteAt (s.transferAddr 2)).toNat = (s.getV x).toNat % 10 ∧
      t.pc = s.pc + 2 ∧
      Frame s t { mem := fun a => decide (s.transferAddr 0 ≤ a) && decide (a < s.transferAddr 3) }) ∧
    (4096 ≤ s.i.toNat + 2 → exec (.ldB x) s =
      .next (FaultAt s .outOfBounds (wordXkk 0xF x 0x33) (some (.mem, max s.i.toNat 4096))))

/-- R155: V[0..x] at I, …, I + x, and no other byte; I unchanged; past 4095 nothing is written.
Rests on the spec's own decisions D2, D4, D6, D26; log entries 10, 11. -/
def Obligations.RegistersAreStored : Prop :=
  Encodes 0xF0FF 0xF055 (fun w => .storeRegs (fieldX w)) ∧
  ∀ (s : State) (x : Idx),
    (s.i.toNat + x.val < 4096 → ∃ t, exec (.storeRegs x) s = .next t ∧
      (∀ k : Idx, k ≤ x → t.byteAt (s.transferAddr k.val) = s.getV k) ∧ t.pc = s.pc + 2 ∧
      Frame s t { mem := fun a => decide (s.transferAddr 0 ≤ a) && decide (a < s.transferAddr (x.val + 1)) }) ∧
    (4096 ≤ s.i.toNat + x.val → exec (.storeRegs x) s =
      .next (FaultAt s .outOfBounds (wordXkk 0xF x 0x55) (some (.mem, max s.i.toNat 4096))))

/-- R156: V[0..x] from I, …, I + x; registers above x and I unchanged; past 4095 no register is written.
Rests on the spec's own decisions D2, D4, D6, D26; log entries 10, 11. -/
def Obligations.RegistersAreLoaded : Prop :=
  Encodes 0xF0FF 0xF065 (fun w => .loadRegs (fieldX w)) ∧
  ∀ (s : State) (x : Idx),
    (s.i.toNat + x.val < 4096 → ∃ t, exec (.loadRegs x) s = .next t ∧
      (∀ k : Idx, k ≤ x → t.getV k = s.byteAt (s.transferAddr k.val)) ∧ t.pc = s.pc + 2 ∧
      Frame s t { regs := fun k => decide (k ≤ x) }) ∧
    (4096 ≤ s.i.toNat + x.val → exec (.loadRegs x) s =
      .next (FaultAt s .outOfBounds (wordXkk 0xF x 0x65) (some (.mem, max s.i.toNat 4096))))

/-- R157 (marked derived by the spec): storing V[0..x], then anything that touches neither memory nor I, then loading
V[0..x] restores them exactly. -/
def Obligations.StoreThenLoadRestoresRegisters : Prop :=
  ∀ (s t u : State) (x : Idx), s.i.toNat + x.val ≤ 4095 → exec (.storeRegs x) s = .next t →
    (∀ a, u.byteAt a = t.byteAt a) → u.i = t.i →
    ∃ v, exec (.loadRegs x) u = .next v ∧ ∀ k : Idx, k ≤ x → v.getV k = s.getV k

/-! ## Display (43_display.md) -/

/-- R171: CLS turns every cell off; VF is unchanged. -/
def Obligations.ClearTurnsEveryCellOff : Prop :=
  Encodes 0xFFFF 0x00E0 (fun _ => .cls) ∧
  ∀ s : State, ∃ t, exec .cls s = .next t ∧ (∀ x y, t.cell x y = false) ∧ t.pc = s.pc + 2 ∧
    Frame s t { disp := true }

/-- R172: DRW toggles exactly the cells its sprite covers, with wrapped coordinates, and VF is 1 exactly when a covered
cell was on; the sprite past 4095 changes nothing and enters OutOfBounds.
Rests on the spec's own decisions D2, D4, D6, D26; log entries 10, 11. -/
def Obligations.SpriteDrawTogglesAndReportsCollision : Prop :=
  Encodes 0xF000 0xD000 (fun w => .drw (fieldX w) (fieldY w) (fieldN w)) ∧
  ∀ (s : State) (x y n : Idx),
    (n.val = 0 ∨ s.i.toNat + n.val ≤ 4096 → ∃ t, exec (.drw x y n) s = .next t ∧
      (∀ c r, (SpriteCovers s x y n c r → t.cell c r = !s.cell c r) ∧
        (¬SpriteCovers s x y n c r → t.cell c r = s.cell c r)) ∧
      ((∃ c r, SpriteCovers s x y n c r ∧ s.cell c r = true) → t.getV 15 = 1) ∧
      ((∀ c r, SpriteCovers s x y n c r → s.cell c r = false) → t.getV 15 = 0) ∧
      t.pc = s.pc + 2 ∧ Frame s t { regs := fun k => k == 15, disp := true }) ∧
    (1 ≤ n.val → 4096 < s.i.toNat + n.val → exec (.drw x y n) s =
      .next (FaultAt s .outOfBounds (wordXyn 0xD x y n) (some (.mem, max s.i.toNat 4096))))

/-- R173 (marked derived by the spec): the same sprite drawn again at the same place restores the display, and the second
VF is 1 exactly when the first draw turned a cell on. -/
def Obligations.DoubleDrawRestoresTheDisplay : Prop :=
  ∀ (s t u v : State) (x y n : Idx), n.val = 0 ∨ s.i.toNat + n.val ≤ 4096 → exec (.drw x y n) s = .next t →
    u.i = s.i → u.getV x = s.getV x → u.getV y = s.getV y →
    (∀ row < n.val, u.byteAt (s.i.toNat + row) = s.byteAt (s.i.toNat + row)) →
    (∀ c r, u.cell c r = t.cell c r) → exec (.drw x y n) u = .next v →
    (∀ c r, v.cell c r = s.cell c r) ∧
    (v.getV 15 = 1 ↔ ∃ c r, s.cell c r = false ∧ t.cell c r = true) ∧
    (v.getV 15 = 1 ∨ v.getV 15 = 0)

/-! ## Keys and timers (44_timers_keys.md) -/

/-- R181, R182, R183: SKP and SKNP skip on the state of key V[x]; V[x] >= 16 enters OutOfBounds (KEYS).
Rests on the spec's own decisions D2, D4, D7; log entries 10, 11. -/
def Obligations.SkipsOnAKey : Prop :=
  Encodes 0xF0FF 0xE09E (fun w => .skp (fieldX w)) ∧ Encodes 0xF0FF 0xE0A1 (fun w => .sknp (fieldX w)) ∧
  ∀ (s : State) (x : Idx),
    (∀ k : Idx, (s.getV x).toNat = k.val →
      (∃ t, exec (.skp x) s = .next t ∧ (s.keys[k] = true → t.pc = s.pc + 4) ∧
        (s.keys[k] = false → t.pc = s.pc + 2) ∧ Frame s t {}) ∧
      (∃ t, exec (.sknp x) s = .next t ∧ (s.keys[k] = false → t.pc = s.pc + 4) ∧
        (s.keys[k] = true → t.pc = s.pc + 2) ∧ Frame s t {})) ∧
    (16 ≤ (s.getV x).toNat →
      exec (.skp x) s = .next (FaultAt s .outOfBounds (wordXkk 0xE x 0x9E) (some (.keys, (s.getV x).toNat))) ∧
      exec (.sknp x) s = .next (FaultAt s .outOfBounds (wordXkk 0xE x 0xA1) (some (.keys, (s.getV x).toNat))))

/-- R185, R186: Fx0A stores the lowest pressed key; with none pressed the step leaves the whole state as it was. -/
def Obligations.WaitForKey : Prop :=
  Encodes 0xF0FF 0xF00A (fun w => .ldVxK (fieldX w)) ∧
  ∀ (s : State) (x : Idx),
    (∀ k : Idx, s.keys[k] = true → (∀ j : Idx, j < k → s.keys[j] = false) →
      ∃ t, exec (.ldVxK x) s = .next t ∧ (t.getV x).toNat = k.val ∧ t.pc = s.pc + 2 ∧
        Frame s t { regs := fun q => q == x }) ∧
    ((∀ k : Idx, s.keys[k] = false) → exec (.ldVxK x) s = .next s)

/-- R184, R187, R188: the timer moves; and no step fires the beep.
Rests on the spec's own decision D18; log entry 11. -/
def Obligations.TimerMoves : Prop :=
  Encodes 0xF0FF 0xF007 (fun w => .ldVxDt (fieldX w)) ∧ Encodes 0xF0FF 0xF015 (fun w => .ldDtVx (fieldX w)) ∧
  Encodes 0xF0FF 0xF018 (fun w => .ldStVx (fieldX w)) ∧
  ∀ (s : State) (x : Idx),
    (∃ t, exec (.ldVxDt x) s = .next t ∧ t.getV x = s.dt ∧ t.pc = s.pc + 2 ∧
      Frame s t { regs := fun k => k == x }) ∧
    (∃ t, exec (.ldDtVx x) s = .next t ∧ t.dt = s.getV x ∧ t.pc = s.pc + 2 ∧ Frame s t { dt := true }) ∧
    (∃ t, exec (.ldStVx x) s = .next t ∧ t.st = s.getV x ∧ t.pc = s.pc + 2 ∧ Frame s t { st := true }) ∧
    ∀ (r : Byte) (b : Bool), (transact (.step r) s).2 ≠ .beep b

/-- R189 (marked derived by the spec), R218: after LD DT, Vx, n calls of `decay_timers`, and any changes of keys between
them, LD Vy, DT reads the written value minus n, floored at 0.
Rests on the spec's own decision D18; log entry 11. -/
def Obligations.DelayTimerCountsDecays : Prop :=
  ∀ (s t : State) (x y : Idx) (ops : List HostOp),
    (∀ op ∈ ops, op = .decayTimers ∨ op = .readDisplay ∨ ∃ k b, op = .setKey k b) →
    exec (.ldDtVx x) s = .next t →
    ∃ u, exec (.ldVxDt y) (transactAll ops t).1 = .next u ∧
      (u.getV y).toNat = (s.getV x).toNat - ops.count .decayTimers

/-! ## Faults (60_exceptions.md) -/

/-- R201, R202, R203, R204: exactly which instructions fault in execute, when, and with what information; every other
instruction, and every other state, leaves the status RUNNING.
Rests on the spec's own decisions D4, D6, D7, D26; log entries 10, 11. -/
def Obligations.ExecFaultsExactlyAsTheTableSays : Prop :=
  ∀ (i : Instr) (s : State), s.status = .running → ∃ t, exec i s = .next t ∧ t.status =
    match i with
    | .ret => if s.sp.val = 0 then (FaultAt s .stackUnderflow (encode i) none).status else .running
    | .call _ => if s.sp.val = 16 then (FaultAt s .stackOverflow (encode i) none).status else .running
    | .skp x | .sknp x =>
      if 16 ≤ (s.getV x).toNat then
        (FaultAt s .outOfBounds (encode i) (some (.keys, (s.getV x).toNat))).status
      else .running
    | .drw _ _ n =>
      if 1 ≤ n.val ∧ 4096 ≤ s.i.toNat + n.val - 1 then
        (FaultAt s .outOfBounds (encode i) (some (.mem, max s.i.toNat 4096))).status
      else .running
    | .ldB _ =>
      if 4096 ≤ s.i.toNat + 2 then (FaultAt s .outOfBounds (encode i) (some (.mem, max s.i.toNat 4096))).status
      else .running
    | .storeRegs x | .loadRegs x =>
      if 4096 ≤ s.i.toNat + x.val then
        (FaultAt s .outOfBounds (encode i) (some (.mem, max s.i.toNat 4096))).status
      else .running
    | _ => .running

/-- R205: a step or a load that raises a fault leaves every element but the status as it was, and the status holds the
fault the operation returns. (The all-or-nothing state is the spec's decision D2; its I3 tells claims about programs not
to rest on it.)
Rests on the spec's own decisions D2, D3; log entry 10. -/
def Obligations.FaultEntryChangesTheStatusOnly : Prop :=
  ∀ (s : State) (op : HostOp) (info : FaultInfo), s.status = .running →
    (∃ r, op = .step r) ∨ (∃ image, op = .load image) → (transact op s).2 = .fault info →
    (transact op s).1 = { s with status := .faulted info }

/-- R203, R206 (the latter marked derived by the spec): a step that faults records the address of its instruction, which
pc still holds, and the fetched word where one was fetched.
Rests on the spec's own decisions D2, D4; log entry 10. -/
def Obligations.StepFaultRecordsPcAndWord : Prop :=
  ∀ s t : State, step s = .next t → t.status ≠ .running →
    ∃ info, t = { s with status := .faulted info } ∧ info.pc = some s.pc ∧ info.pc = some t.pc ∧
      (∀ w, s.fetchWord = .ok w → info.word = some w) ∧ (∀ c, s.fetchWord = .error c → info.word = none)

/-- R207: while FAULTED, `step` and `load` return the recorded fault and change nothing; the other operations behave as
in RUNNING; `initialize` and `reset` return to RUNNING.
Rests on the spec's own decision D3; log entry 10. -/
def Obligations.FaultedIsSticky : Prop :=
  ∀ (s : State) (info : FaultInfo), s.status = .faulted info →
    (∀ r, transact (.step r) s = (s, .fault info)) ∧
    (∀ image, transact (.load image) s = (s, .fault info)) ∧
    (∀ op, (op = .decayTimers ∨ op = .readDisplay ∨ ∃ k b, op = .setKey k b) →
      (transact op s).2 = (transact op { s with status := .running }).2 ∧
      (transact op s).1 = { (transact op { s with status := .running }).1 with status := .faulted info }) ∧
    (∀ op, (op = .init ∨ op = .reset) → (transact op s).1.status = .running)

/-- R17, R209, R207: in every RUNNING state a step answers a next state; a step stops only in FAULTED, with the recorded
fault (that this stop is `Outcome.fault` is the model's choice, log entry 3); and no step is ever refused.
Rests on the spec's own decisions D3, D20; log entries 10, 11. -/
def Obligations.StepStopsOnlyWhenFaulted : Prop :=
  ∀ s : State, (s.status = .running → ∃ t, step s = .next t) ∧
    (∀ f, step s = .fault f → ∃ info, f = .halted info ∧ s.status = .faulted info) ∧
    (∀ r, step s ≠ .refused r)

/-! ## Host operations (60_exceptions.md, 70_reset_and_hazards.md) -/

/-- R218: `decay_timers` decrements each timer once, floored at 0, beeps exactly when ST was 1, and changes nothing else,
in both statuses.
Rests on the spec's own decisions D3, D18; log entries 10, 11. -/
def Obligations.DecayTimers : Prop :=
  ∀ s : State, ∃ t b, transact .decayTimers s = (t, .beep b) ∧
    t.dt.toNat = s.dt.toNat - 1 ∧ t.st.toNat = s.st.toNat - 1 ∧ (b = true ↔ s.st = 1) ∧
    t.pc = s.pc ∧ Frame s t { dt := true, st := true }

/-- R219, R220: `set_key` writes one key and nothing else; `read_display` gives the cells in row-major order and changes
nothing.
Rests on the spec's own decisions D3, D8; log entries 10, 11. -/
def Obligations.SetKeyAndReadDisplay : Prop :=
  ∀ s : State,
    (∀ (k : Idx) (b : Bool), ∃ t, transact (.setKey k b) s = (t, .ok) ∧ t.keys[k] = b ∧
      (∀ j : Idx, j ≠ k → t.keys[j] = s.keys[j]) ∧ t = { s with keys := t.keys }) ∧
    ∃ cells, transact .readDisplay s = (s, .display cells) ∧ cells.length = 2048 ∧
      ∀ (x : Fin 64) (y : Fin 32), cells[x.val + 64 * y.val]? = some (s.cell x y)

/-- R232, R233: `load` in RUNNING: an image that fits is copied to 0x200 and pc set there, nothing else; one that does not
is a fault with address 4096 and changes the status only.
Rests on the spec's own decisions D2, D4, D12, D26; log entries 10, 11. -/
def Obligations.LoadCopiesTheImageOrFaults : Prop :=
  ∀ (s : State) (image : List Byte), s.status = .running →
    (512 + image.length ≤ 4096 → ∃ t, transact (.load image) s = (t, .ok) ∧ t.pc = 0x200 ∧
      (∀ (k : Nat) (h : k < image.length), t.byteAt (0x200 + k) = image[k]) ∧
      Frame s t { mem := fun a => decide (0x200 ≤ a) && decide (a < 0x200 + image.length) }) ∧
    (4096 < 512 + image.length → transact (.load image) s =
      ({ s with status := .faulted ⟨.outOfBounds, none, none, some (.mem, 4096)⟩ },
        .fault ⟨.outOfBounds, none, none, some (.mem, 4096)⟩))

/-! ## Rules of the whole machine -/

/-- R34, R90, R180: no step changes a key, and no step changes a timer but Fx15 and Fx18, which write V[x]. The clause on
`fontRom` is about the model's own field: that the state carries the parameter FONT_ROM of R7, which no step writes, is
the model's choice (log entry 2). -/
def Obligations.StepsDoNotTouchKeysOrDecayTimers : Prop :=
  ∀ s t : State, step s = .next t → t.keys = s.keys ∧ t.fontRom = s.fontRom ∧
    (t.dt ≠ s.dt → ∃ w x, s.fetch = .instr w (.ldDtVx x) ∧ t.dt = s.getV x) ∧
    (t.st ≠ s.st → ∃ w x, s.fetch = .instr w (.ldStVx x) ∧ t.st = s.getV x)

/-- R62, R63: a step changes a byte of memory only by Fx33 or Fx55, and only at the addresses of their transfer.
Rests on the spec's own decisions D2, D6; log entries 10, 11. -/
def Obligations.MemoryChangesOnlyByTheTwoStores : Prop :=
  ∀ (s t : State) (a : Nat), step s = .next t → t.byteAt a ≠ s.byteAt a →
    (∃ w x, s.fetch = .instr w (.ldB x) ∧ s.i.toNat ≤ a ∧ a ≤ s.i.toNat + 2 ∧ a < 4096) ∨
    (∃ w x, s.fetch = .instr w (.storeRegs x) ∧ s.i.toNat ≤ a ∧ a ≤ s.i.toNat + x.val ∧ a < 4096)

/-- R170, R32: a step changes a display cell only by CLS or DRW. -/
def Obligations.DisplayChangesOnlyByClsAndDrw : Prop :=
  ∀ s t : State, step s = .next t → (∃ c r, t.cell c r ≠ s.cell c r) →
    (∃ w, s.fetch = .instr w .cls) ∨ (∃ w x y n, s.fetch = .instr w (.drw x y n))

/-- R29: a step changes I only by Annn, Fx1E or Fx29. -/
def Obligations.IndexChangesOnlyByItsThreeWriters : Prop :=
  ∀ s t : State, step s = .next t → t.i ≠ s.i →
    (∃ w nnn, s.fetch = .instr w (.ldI nnn)) ∨ (∃ w x, s.fetch = .instr w (.addI x)) ∨
    (∃ w x, s.fetch = .instr w (.ldF x))

/-- R30, R111: a step changes a stack entry only by CALL, and only the entry at sp; it changes sp only by CALL, which adds
1, and RET, which takes 1.
Rests on the spec's own decisions D2, D15; log entries 10, 11. -/
def Obligations.StackChangesOnlyByCallAndRet : Prop :=
  ∀ s t : State, step s = .next t →
    (∀ k : Idx, t.stack[k] ≠ s.stack[k] → k.val = s.sp.val ∧ ∃ w nnn, s.fetch = .instr w (.call nnn)) ∧
    (t.sp ≠ s.sp → (t.sp.val = s.sp.val + 1 ∧ ∃ w nnn, s.fetch = .instr w (.call nnn)) ∨
      (t.sp.val + 1 = s.sp.val ∧ ∃ w, s.fetch = .instr w .ret))

/-- R26, R27, R174: VF changes only by one of the six flag writers, or as the destination of an instruction whose x field
is 15.
Rests on the spec's own decisions D2, D9, D10; log entries 10, 11. -/
def Obligations.VfChangesOnlyByItsWriters : Prop :=
  ∀ s t : State, step s = .next t → t.getV 15 ≠ s.getV 15 → ∃ w i, s.fetch = .instr w i ∧
    ((∃ x y, i = .addReg x y ∨ i = .subReg x y ∨ i = .shr x ∨ i = .subnReg x y ∨ i = .shl x ∨ ∃ n, i = .drw x y n) ∨
     (∃ y kk, i = .ldImm 15 kk ∨ i = .addImm 15 kk ∨ i = .ldReg 15 y ∨ i = .orReg 15 y ∨ i = .andReg 15 y ∨
        i = .xorReg 15 y ∨ i = .rnd 15 kk ∨ i = .ldVxDt 15 ∨ i = .ldVxK 15 ∨ i = .loadRegs 15))

/-- R21, R102, R103, R104, R105, R110, R186: a step that raises no fault moves pc by 2, by 4 for a taken skip, by 0 for an
Fx0A that found no key, or to the target of a jump (unchecked, D5), a call or a return (the entry below sp, D15).
Rests on the spec's own decisions D5, D15; log entry 11. -/
def Obligations.EveryStepMovesPcAsItsInstructionSays : Prop :=
  ∀ s t : State, step s = .next t → t.status = .running → ∃ w i, s.fetch = .instr w i ∧
    match i with
    | .jp nnn | .call nnn => t.pc.toNat = nnn.toNat
    | .jpV0 nnn => t.pc.toNat = nnn.toNat + (s.getV 0).toNat
    | .ret => ∃ j : Idx, s.sp.val = j.val + 1 ∧ t.pc = s.stack[j]
    | .seImm _ _ | .sneImm _ _ | .seReg _ _ | .sneReg _ _ | .skp _ | .sknp _ => t.pc = s.pc + 2 ∨ t.pc = s.pc + 4
    | .ldVxK _ => t.pc = s.pc + 2 ∨ (t.pc = s.pc ∧ ∀ k : Idx, s.keys[k] = false)
    | _ => t.pc = s.pc + 2

/-! ## The invariant -/

/-- The state after reset meets the invariant. That memory is in canonical form is the model's choice (log entry 5).
Rests on the spec's own decision D11; log entry 4. -/
def Obligations.ResetMeetsTheInvariant : Prop := State.reset.Inv

/-- Tier 3, (b): every step keeps the invariant, from every state that meets it: memory stays canonical (log entry 5), pc
and the return addresses stay in the bounds of R23, and a recorded fault is a row of the table of R203 at the pc the state
holds.
Rests on the spec's own decisions D2, D4, D24, D25; log entries 10, 11. -/
def Obligations.StepKeepsTheInvariant : Prop :=
  ∀ s t : State, s.Inv → step s = .next t → t.Inv

/-- Tier 3: every host operation keeps the invariant, so every sequence of them from reset does (R221). The invariant's
clause that memory is canonical is the model's choice (log entry 5).
Rests on the spec's own decisions D2, D4, D11, D12, D24, D25; log entries 4, 10, 11. -/
def Obligations.HostOperationsKeepTheInvariant : Prop :=
  (∀ (op : HostOp) (s : State), s.Inv → (transact op s).1.Inv) ∧
  ∀ ops : List HostOp, (transactAll ops State.reset).1.Inv
end

