-- ==== Sys2Proof/Laws/Decode.lean ====
section
/-! SUPPORT. The fields of an encoded word, and the byte order. -/

namespace Sys2Proof

/-! ## The byte order of R64 -/

@[simp] theorem highByte_wordOfBytes (h l : Byte) : highByte (wordOfBytes h l) = h := by
  apply BitVec.eq_of_toNat_eq
  simp only [highByte, wordOfBytes, BitVec.extractLsb'_toNat, BitVec.toNat_append, Nat.shiftRight_eq_div_pow]
  rw [← Nat.shiftLeft_add_eq_or_of_lt l.isLt, Nat.shiftLeft_eq]
  have := h.isLt; have := l.isLt
  omega

@[simp] theorem lowByte_wordOfBytes (h l : Byte) : lowByte (wordOfBytes h l) = l := by
  apply BitVec.eq_of_toNat_eq
  simp only [lowByte, wordOfBytes, BitVec.extractLsb'_toNat, BitVec.toNat_append, Nat.shiftRight_eq_div_pow]
  rw [← Nat.shiftLeft_add_eq_or_of_lt l.isLt, Nat.shiftLeft_eq]
  have := h.isLt; have := l.isLt
  omega

theorem wordOfBytes_toNat (h l : Byte) : (wordOfBytes h l).toNat = h.toNat * 256 + l.toNat := by
  simp only [wordOfBytes, BitVec.toNat_append]
  rw [← Nat.shiftLeft_add_eq_or_of_lt l.isLt, Nat.shiftLeft_eq]

@[simp] theorem wordOfBytes_bytes (w : Word) : wordOfBytes (highByte w) (lowByte w) = w := by
  apply BitVec.eq_of_toNat_eq
  rw [wordOfBytes_toNat]
  simp only [highByte, lowByte, BitVec.extractLsb'_toNat, Nat.shiftRight_eq_div_pow]
  have := w.isLt
  omega

/-! ## The fields of R81 as numbers -/

theorem fieldX_val (w : Word) : (fieldX w).val = w.toNat / 256 % 16 := by
  show (w.extractLsb' 8 4).toNat = _
  simp [BitVec.extractLsb'_toNat, Nat.shiftRight_eq_div_pow]

theorem fieldY_val (w : Word) : (fieldY w).val = w.toNat / 16 % 16 := by
  show (w.extractLsb' 4 4).toNat = _
  simp [BitVec.extractLsb'_toNat, Nat.shiftRight_eq_div_pow]

theorem fieldN_val (w : Word) : (fieldN w).val = w.toNat % 16 := by
  show (w.extractLsb' 0 4).toNat = _
  simp [BitVec.extractLsb'_toNat]

theorem selector_toNat (w : Word) : (w.extractLsb' 0 4).toNat = w.toNat % 16 := by
  simp [BitVec.extractLsb'_toNat]

theorem fieldKk_toNat (w : Word) : (fieldKk w).toNat = w.toNat % 256 := by
  simp [fieldKk, BitVec.extractLsb'_toNat]

theorem fieldNnn_toNat (w : Word) : (fieldNnn w).toNat = w.toNat % 4096 := by
  simp [fieldNnn, BitVec.extractLsb'_toNat]

theorem fieldFamily_toNat (w : Word) : (fieldFamily w).toNat = w.toNat / 4096 := by
  have := w.isLt
  simp only [fieldFamily, BitVec.extractLsb'_toNat, Nat.shiftRight_eq_div_pow]
  omega

/-! ## The encoder's words as numbers -/

theorem wordNnn_toNat (f : BitVec 4) (nnn : BitVec 12) : (wordNnn f nnn).toNat = f.toNat * 4096 + nnn.toNat := by
  simp only [wordNnn, BitVec.toNat_append]
  rw [← Nat.shiftLeft_add_eq_or_of_lt nnn.isLt, Nat.shiftLeft_eq]

theorem wordXkk_toNat (f : BitVec 4) (x : Idx) (kk : Byte) :
    (wordXkk f x kk).toNat = f.toNat * 4096 + x.val * 256 + kk.toNat := by
  simp only [wordXkk, BitVec.toNat_append, BitVec.toNat_ofFin]
  rw [← Nat.shiftLeft_add_eq_or_of_lt kk.isLt, ← Nat.shiftLeft_add_eq_or_of_lt x.isLt, Nat.shiftLeft_eq,
    Nat.shiftLeft_eq]
  omega

theorem wordXyn_toNat (f : BitVec 4) (x y n : Idx) :
    (wordXyn f x y n).toNat = f.toNat * 4096 + x.val * 256 + y.val * 16 + n.val := by
  simp only [wordXyn, BitVec.toNat_append, BitVec.toNat_ofFin]
  rw [← Nat.shiftLeft_add_eq_or_of_lt n.isLt, ← Nat.shiftLeft_add_eq_or_of_lt y.isLt,
    ← Nat.shiftLeft_add_eq_or_of_lt x.isLt, Nat.shiftLeft_eq, Nat.shiftLeft_eq, Nat.shiftLeft_eq]
  omega

/-! ## The fields of the encoder's words -/

@[simp] theorem fieldFamily_wordNnn (f : BitVec 4) (nnn : BitVec 12) : fieldFamily (wordNnn f nnn) = f := by
  apply BitVec.eq_of_toNat_eq
  rw [fieldFamily_toNat, wordNnn_toNat]
  omega

@[simp] theorem fieldNnn_wordNnn (f : BitVec 4) (nnn : BitVec 12) : fieldNnn (wordNnn f nnn) = nnn := by
  apply BitVec.eq_of_toNat_eq
  rw [fieldNnn_toNat, wordNnn_toNat]
  omega

@[simp] theorem fieldFamily_wordXkk (f : BitVec 4) (x : Idx) (kk : Byte) : fieldFamily (wordXkk f x kk) = f := by
  apply BitVec.eq_of_toNat_eq
  rw [fieldFamily_toNat, wordXkk_toNat]
  omega

@[simp] theorem fieldX_wordXkk (f : BitVec 4) (x : Idx) (kk : Byte) : fieldX (wordXkk f x kk) = x := by
  apply Fin.ext
  rw [fieldX_val, wordXkk_toNat]
  omega

@[simp] theorem fieldKk_wordXkk (f : BitVec 4) (x : Idx) (kk : Byte) : fieldKk (wordXkk f x kk) = kk := by
  apply BitVec.eq_of_toNat_eq
  rw [fieldKk_toNat, wordXkk_toNat]
  omega

@[simp] theorem fieldFamily_wordXyn (f : BitVec 4) (x y n : Idx) : fieldFamily (wordXyn f x y n) = f := by
  apply BitVec.eq_of_toNat_eq
  rw [fieldFamily_toNat, wordXyn_toNat]
  omega

@[simp] theorem fieldX_wordXyn (f : BitVec 4) (x y n : Idx) : fieldX (wordXyn f x y n) = x := by
  apply Fin.ext
  rw [fieldX_val, wordXyn_toNat]
  omega

@[simp] theorem fieldY_wordXyn (f : BitVec 4) (x y n : Idx) : fieldY (wordXyn f x y n) = y := by
  apply Fin.ext
  rw [fieldY_val, wordXyn_toNat]
  omega

@[simp] theorem fieldN_wordXyn (f : BitVec 4) (x y n : Idx) : fieldN (wordXyn f x y n) = n := by
  apply Fin.ext
  rw [fieldN_val, wordXyn_toNat]
  omega

@[simp] theorem selector_wordXyn (f : BitVec 4) (x y n : Idx) :
    (wordXyn f x y n).extractLsb' 0 4 = BitVec.ofFin (w := 4) n := by
  apply BitVec.eq_of_toNat_eq
  show _ = n.val
  rw [selector_toNat, wordXyn_toNat]
  omega

/-! ## A masked word fixes the fields its mask covers -/

/-- The family of a word that matches a row whose mask covers it. -/
theorem family_of_mask {w mask pattern : Word} (h : w &&& mask = pattern)
    (hm : mask.extractLsb' 12 4 = BitVec.allOnes 4) : fieldFamily w = pattern.extractLsb' 12 4 := by
  have := congrArg (BitVec.extractLsb' 12 4) h
  rw [BitVec.extractLsb'_and, hm, BitVec.and_allOnes] at this
  exact this

/-- The sub-selector n of a word that matches a row whose mask covers it. -/
theorem selector_of_mask {w mask pattern : Word} (h : w &&& mask = pattern)
    (hm : mask.extractLsb' 0 4 = BitVec.allOnes 4) : w.extractLsb' 0 4 = pattern.extractLsb' 0 4 := by
  have := congrArg (BitVec.extractLsb' 0 4) h
  rw [BitVec.extractLsb'_and, hm, BitVec.and_allOnes] at this
  exact this

/-- The low byte of a word that matches a row whose mask covers it. -/
theorem kk_of_mask {w mask pattern : Word} (h : w &&& mask = pattern)
    (hm : mask.extractLsb' 0 8 = BitVec.allOnes 8) : fieldKk w = pattern.extractLsb' 0 8 := by
  have := congrArg (BitVec.extractLsb' 0 8) h
  rw [BitVec.extractLsb'_and, hm, BitVec.and_allOnes] at this
  exact this

/-! ## The masks of R86 as fields -/

/-- The mask of the families without sub-selector keeps the family. -/
theorem and_F000 (w : Word) : w &&& 0xF000#16 = wordNnn (fieldFamily w) 0 := by
  apply BitVec.eq_of_getLsbD_eq
  intro i hi
  have e : (wordNnn (fieldFamily w) 0).getLsbD i = (fieldFamily w ++ (0 : BitVec 12)).getLsbD i := rfl
  rw [e, BitVec.getLsbD_append, BitVec.getLsbD_and, fieldFamily]
  interval_cases i <;> simp

/-- The mask of families 5, 8 and 9 keeps the family and n. -/
theorem and_F00F (w : Word) : w &&& 0xF00F#16 = wordXyn (fieldFamily w) 0 0 (fieldN w) := by
  apply BitVec.eq_of_getLsbD_eq
  intro i hi
  have e : (wordXyn (fieldFamily w) 0 0 (fieldN w)).getLsbD i =
      (fieldFamily w ++ (0 : BitVec 4) ++ (0 : BitVec 4) ++ w.extractLsb' 0 4).getLsbD i := rfl
  rw [e, BitVec.getLsbD_append, BitVec.getLsbD_append, BitVec.getLsbD_append, BitVec.getLsbD_and, fieldFamily]
  interval_cases i <;> simp

/-- The mask of families E and F keeps the family and kk. -/
theorem and_F0FF (w : Word) : w &&& 0xF0FF#16 = wordXkk (fieldFamily w) 0 (fieldKk w) := by
  apply BitVec.eq_of_getLsbD_eq
  intro i hi
  have e : (wordXkk (fieldFamily w) 0 (fieldKk w)).getLsbD i =
      (fieldFamily w ++ (0 : BitVec 4) ++ fieldKk w).getLsbD i := rfl
  rw [e, BitVec.getLsbD_append, BitVec.getLsbD_append, BitVec.getLsbD_and, fieldFamily, fieldKk]
  interval_cases i <;> simp

theorem and_FFFF (w : Word) : w &&& 0xFFFF#16 = w := BitVec.and_allOnes

end Sys2Proof
end

