-- ==== Sys2Proof/Laws/State.lean ====
section
/-! SUPPORT. One lemma per field per update of the state, true by rfl. -/

namespace Sys2Proof.Machine

variable (s : State)

/-! ### `State.advance` -/

@[simp] theorem State.advance_pc : s.advance.pc = s.pc + 2 := rfl
@[simp] theorem State.advance_mem : s.advance.mem = s.mem := rfl
@[simp] theorem State.advance_disp : s.advance.disp = s.disp := rfl
@[simp] theorem State.advance_v : s.advance.v = s.v := rfl
@[simp] theorem State.advance_i : s.advance.i = s.i := rfl
@[simp] theorem State.advance_stack : s.advance.stack = s.stack := rfl
@[simp] theorem State.advance_sp : s.advance.sp = s.sp := rfl
@[simp] theorem State.advance_keys : s.advance.keys = s.keys := rfl
@[simp] theorem State.advance_dt : s.advance.dt = s.dt := rfl
@[simp] theorem State.advance_st : s.advance.st = s.st := rfl
@[simp] theorem State.advance_status : s.advance.status = s.status := rfl
@[simp] theorem State.advance_fontRom : s.advance.fontRom = s.fontRom := rfl
@[simp] theorem State.advance_draws : s.advance.draws = s.draws := rfl
@[simp] theorem State.advance_getV (k : Idx) : s.advance.getV k = s.getV k := rfl
@[simp] theorem State.advance_byteAt (a : Nat) : s.advance.byteAt a = s.byteAt a := rfl
@[simp] theorem State.advance_cell (x : Fin 64) (y : Fin 32) : s.advance.cell x y = s.cell x y := rfl

/-! ### `State.skip` -/

@[simp] theorem State.skip_pc : s.skip.pc = s.pc + 2 := rfl
@[simp] theorem State.skip_mem : s.skip.mem = s.mem := rfl
@[simp] theorem State.skip_disp : s.skip.disp = s.disp := rfl
@[simp] theorem State.skip_v : s.skip.v = s.v := rfl
@[simp] theorem State.skip_i : s.skip.i = s.i := rfl
@[simp] theorem State.skip_stack : s.skip.stack = s.stack := rfl
@[simp] theorem State.skip_sp : s.skip.sp = s.sp := rfl
@[simp] theorem State.skip_keys : s.skip.keys = s.keys := rfl
@[simp] theorem State.skip_dt : s.skip.dt = s.dt := rfl
@[simp] theorem State.skip_st : s.skip.st = s.st := rfl
@[simp] theorem State.skip_status : s.skip.status = s.status := rfl
@[simp] theorem State.skip_fontRom : s.skip.fontRom = s.fontRom := rfl
@[simp] theorem State.skip_draws : s.skip.draws = s.draws := rfl
@[simp] theorem State.skip_getV (k : Idx) : s.skip.getV k = s.getV k := rfl
@[simp] theorem State.skip_byteAt (a : Nat) : s.skip.byteAt a = s.byteAt a := rfl
@[simp] theorem State.skip_cell (x : Fin 64) (y : Fin 32) : s.skip.cell x y = s.cell x y := rfl

/-! ### `State.rewind` -/

@[simp] theorem State.rewind_pc : s.rewind.pc = s.pc - 2 := rfl
@[simp] theorem State.rewind_mem : s.rewind.mem = s.mem := rfl
@[simp] theorem State.rewind_disp : s.rewind.disp = s.disp := rfl
@[simp] theorem State.rewind_v : s.rewind.v = s.v := rfl
@[simp] theorem State.rewind_i : s.rewind.i = s.i := rfl
@[simp] theorem State.rewind_stack : s.rewind.stack = s.stack := rfl
@[simp] theorem State.rewind_sp : s.rewind.sp = s.sp := rfl
@[simp] theorem State.rewind_keys : s.rewind.keys = s.keys := rfl
@[simp] theorem State.rewind_dt : s.rewind.dt = s.dt := rfl
@[simp] theorem State.rewind_st : s.rewind.st = s.st := rfl
@[simp] theorem State.rewind_status : s.rewind.status = s.status := rfl
@[simp] theorem State.rewind_fontRom : s.rewind.fontRom = s.fontRom := rfl
@[simp] theorem State.rewind_draws : s.rewind.draws = s.draws := rfl
@[simp] theorem State.rewind_getV (k : Idx) : s.rewind.getV k = s.getV k := rfl
@[simp] theorem State.rewind_byteAt (a : Nat) : s.rewind.byteAt a = s.byteAt a := rfl
@[simp] theorem State.rewind_cell (x : Fin 64) (y : Fin 32) : s.rewind.cell x y = s.cell x y := rfl

/-! ### `State.jumpTo` -/

@[simp] theorem State.jumpTo_pc (w : Word) : (s.jumpTo w).pc = w := rfl
@[simp] theorem State.jumpTo_mem (w : Word) : (s.jumpTo w).mem = s.mem := rfl
@[simp] theorem State.jumpTo_disp (w : Word) : (s.jumpTo w).disp = s.disp := rfl
@[simp] theorem State.jumpTo_v (w : Word) : (s.jumpTo w).v = s.v := rfl
@[simp] theorem State.jumpTo_i (w : Word) : (s.jumpTo w).i = s.i := rfl
@[simp] theorem State.jumpTo_stack (w : Word) : (s.jumpTo w).stack = s.stack := rfl
@[simp] theorem State.jumpTo_sp (w : Word) : (s.jumpTo w).sp = s.sp := rfl
@[simp] theorem State.jumpTo_keys (w : Word) : (s.jumpTo w).keys = s.keys := rfl
@[simp] theorem State.jumpTo_dt (w : Word) : (s.jumpTo w).dt = s.dt := rfl
@[simp] theorem State.jumpTo_st (w : Word) : (s.jumpTo w).st = s.st := rfl
@[simp] theorem State.jumpTo_status (w : Word) : (s.jumpTo w).status = s.status := rfl
@[simp] theorem State.jumpTo_fontRom (w : Word) : (s.jumpTo w).fontRom = s.fontRom := rfl
@[simp] theorem State.jumpTo_draws (w : Word) : (s.jumpTo w).draws = s.draws := rfl
@[simp] theorem State.jumpTo_getV (w : Word) (k : Idx) : (s.jumpTo w).getV k = s.getV k := rfl
@[simp] theorem State.jumpTo_byteAt (w : Word) (a : Nat) : (s.jumpTo w).byteAt a = s.byteAt a := rfl
@[simp] theorem State.jumpTo_cell (w : Word) (x : Fin 64) (y : Fin 32) : (s.jumpTo w).cell x y = s.cell x y := rfl

/-! ### `State.setV` -/

@[simp] theorem State.setV_pc (r : Idx) (b : Byte) : (s.setV r b).pc = s.pc := rfl
@[simp] theorem State.setV_mem (r : Idx) (b : Byte) : (s.setV r b).mem = s.mem := rfl
@[simp] theorem State.setV_disp (r : Idx) (b : Byte) : (s.setV r b).disp = s.disp := rfl
@[simp] theorem State.setV_v (r : Idx) (b : Byte) : (s.setV r b).v = s.v.set r b := rfl
@[simp] theorem State.setV_i (r : Idx) (b : Byte) : (s.setV r b).i = s.i := rfl
@[simp] theorem State.setV_stack (r : Idx) (b : Byte) : (s.setV r b).stack = s.stack := rfl
@[simp] theorem State.setV_sp (r : Idx) (b : Byte) : (s.setV r b).sp = s.sp := rfl
@[simp] theorem State.setV_keys (r : Idx) (b : Byte) : (s.setV r b).keys = s.keys := rfl
@[simp] theorem State.setV_dt (r : Idx) (b : Byte) : (s.setV r b).dt = s.dt := rfl
@[simp] theorem State.setV_st (r : Idx) (b : Byte) : (s.setV r b).st = s.st := rfl
@[simp] theorem State.setV_status (r : Idx) (b : Byte) : (s.setV r b).status = s.status := rfl
@[simp] theorem State.setV_fontRom (r : Idx) (b : Byte) : (s.setV r b).fontRom = s.fontRom := rfl
@[simp] theorem State.setV_draws (r : Idx) (b : Byte) : (s.setV r b).draws = s.draws := rfl
@[simp] theorem State.setV_byteAt (r : Idx) (b : Byte) (a : Nat) : (s.setV r b).byteAt a = s.byteAt a := rfl
@[simp] theorem State.setV_cell (r : Idx) (b : Byte) (x : Fin 64) (y : Fin 32) : (s.setV r b).cell x y = s.cell x y := rfl

/-! ### `State.setVPrefix` -/

@[simp] theorem State.setVPrefix_pc (bs : List Byte) : (s.setVPrefix bs).pc = s.pc := rfl
@[simp] theorem State.setVPrefix_mem (bs : List Byte) : (s.setVPrefix bs).mem = s.mem := rfl
@[simp] theorem State.setVPrefix_disp (bs : List Byte) : (s.setVPrefix bs).disp = s.disp := rfl
@[simp] theorem State.setVPrefix_i (bs : List Byte) : (s.setVPrefix bs).i = s.i := rfl
@[simp] theorem State.setVPrefix_stack (bs : List Byte) : (s.setVPrefix bs).stack = s.stack := rfl
@[simp] theorem State.setVPrefix_sp (bs : List Byte) : (s.setVPrefix bs).sp = s.sp := rfl
@[simp] theorem State.setVPrefix_keys (bs : List Byte) : (s.setVPrefix bs).keys = s.keys := rfl
@[simp] theorem State.setVPrefix_dt (bs : List Byte) : (s.setVPrefix bs).dt = s.dt := rfl
@[simp] theorem State.setVPrefix_st (bs : List Byte) : (s.setVPrefix bs).st = s.st := rfl
@[simp] theorem State.setVPrefix_status (bs : List Byte) : (s.setVPrefix bs).status = s.status := rfl
@[simp] theorem State.setVPrefix_fontRom (bs : List Byte) : (s.setVPrefix bs).fontRom = s.fontRom := rfl
@[simp] theorem State.setVPrefix_draws (bs : List Byte) : (s.setVPrefix bs).draws = s.draws := rfl
@[simp] theorem State.setVPrefix_byteAt (bs : List Byte) (a : Nat) : (s.setVPrefix bs).byteAt a = s.byteAt a := rfl
@[simp] theorem State.setVPrefix_cell (bs : List Byte) (x : Fin 64) (y : Fin 32) : (s.setVPrefix bs).cell x y = s.cell x y := rfl

/-! ### `State.setI` -/

@[simp] theorem State.setI_pc (w : Word) : (s.setI w).pc = s.pc := rfl
@[simp] theorem State.setI_mem (w : Word) : (s.setI w).mem = s.mem := rfl
@[simp] theorem State.setI_disp (w : Word) : (s.setI w).disp = s.disp := rfl
@[simp] theorem State.setI_v (w : Word) : (s.setI w).v = s.v := rfl
@[simp] theorem State.setI_i (w : Word) : (s.setI w).i = w := rfl
@[simp] theorem State.setI_stack (w : Word) : (s.setI w).stack = s.stack := rfl
@[simp] theorem State.setI_sp (w : Word) : (s.setI w).sp = s.sp := rfl
@[simp] theorem State.setI_keys (w : Word) : (s.setI w).keys = s.keys := rfl
@[simp] theorem State.setI_dt (w : Word) : (s.setI w).dt = s.dt := rfl
@[simp] theorem State.setI_st (w : Word) : (s.setI w).st = s.st := rfl
@[simp] theorem State.setI_status (w : Word) : (s.setI w).status = s.status := rfl
@[simp] theorem State.setI_fontRom (w : Word) : (s.setI w).fontRom = s.fontRom := rfl
@[simp] theorem State.setI_draws (w : Word) : (s.setI w).draws = s.draws := rfl
@[simp] theorem State.setI_getV (w : Word) (k : Idx) : (s.setI w).getV k = s.getV k := rfl
@[simp] theorem State.setI_byteAt (w : Word) (a : Nat) : (s.setI w).byteAt a = s.byteAt a := rfl
@[simp] theorem State.setI_cell (w : Word) (x : Fin 64) (y : Fin 32) : (s.setI w).cell x y = s.cell x y := rfl

/-! ### `State.setFlag` -/

@[simp] theorem State.setFlag_pc (c : Bool) : (s.setFlag c).pc = s.pc := rfl
@[simp] theorem State.setFlag_mem (c : Bool) : (s.setFlag c).mem = s.mem := rfl
@[simp] theorem State.setFlag_disp (c : Bool) : (s.setFlag c).disp = s.disp := rfl
@[simp] theorem State.setFlag_i (c : Bool) : (s.setFlag c).i = s.i := rfl
@[simp] theorem State.setFlag_stack (c : Bool) : (s.setFlag c).stack = s.stack := rfl
@[simp] theorem State.setFlag_sp (c : Bool) : (s.setFlag c).sp = s.sp := rfl
@[simp] theorem State.setFlag_keys (c : Bool) : (s.setFlag c).keys = s.keys := rfl
@[simp] theorem State.setFlag_dt (c : Bool) : (s.setFlag c).dt = s.dt := rfl
@[simp] theorem State.setFlag_st (c : Bool) : (s.setFlag c).st = s.st := rfl
@[simp] theorem State.setFlag_status (c : Bool) : (s.setFlag c).status = s.status := rfl
@[simp] theorem State.setFlag_fontRom (c : Bool) : (s.setFlag c).fontRom = s.fontRom := rfl
@[simp] theorem State.setFlag_draws (c : Bool) : (s.setFlag c).draws = s.draws := rfl
@[simp] theorem State.setFlag_byteAt (c : Bool) (a : Nat) : (s.setFlag c).byteAt a = s.byteAt a := rfl
@[simp] theorem State.setFlag_cell (c : Bool) (x : Fin 64) (y : Fin 32) : (s.setFlag c).cell x y = s.cell x y := rfl

/-! ### `State.setResultAndFlag` -/

@[simp] theorem State.setResultAndFlag_pc (r : Idx) (b : Byte) (c : Bool) : (s.setResultAndFlag r b c).pc = s.pc := rfl
@[simp] theorem State.setResultAndFlag_mem (r : Idx) (b : Byte) (c : Bool) : (s.setResultAndFlag r b c).mem = s.mem := rfl
@[simp] theorem State.setResultAndFlag_disp (r : Idx) (b : Byte) (c : Bool) : (s.setResultAndFlag r b c).disp = s.disp := rfl
@[simp] theorem State.setResultAndFlag_i (r : Idx) (b : Byte) (c : Bool) : (s.setResultAndFlag r b c).i = s.i := rfl
@[simp] theorem State.setResultAndFlag_stack (r : Idx) (b : Byte) (c : Bool) : (s.setResultAndFlag r b c).stack = s.stack := rfl
@[simp] theorem State.setResultAndFlag_sp (r : Idx) (b : Byte) (c : Bool) : (s.setResultAndFlag r b c).sp = s.sp := rfl
@[simp] theorem State.setResultAndFlag_keys (r : Idx) (b : Byte) (c : Bool) : (s.setResultAndFlag r b c).keys = s.keys := rfl
@[simp] theorem State.setResultAndFlag_dt (r : Idx) (b : Byte) (c : Bool) : (s.setResultAndFlag r b c).dt = s.dt := rfl
@[simp] theorem State.setResultAndFlag_st (r : Idx) (b : Byte) (c : Bool) : (s.setResultAndFlag r b c).st = s.st := rfl
@[simp] theorem State.setResultAndFlag_status (r : Idx) (b : Byte) (c : Bool) : (s.setResultAndFlag r b c).status = s.status := rfl
@[simp] theorem State.setResultAndFlag_fontRom (r : Idx) (b : Byte) (c : Bool) : (s.setResultAndFlag r b c).fontRom = s.fontRom := rfl
@[simp] theorem State.setResultAndFlag_draws (r : Idx) (b : Byte) (c : Bool) : (s.setResultAndFlag r b c).draws = s.draws := rfl
@[simp] theorem State.setResultAndFlag_byteAt (r : Idx) (b : Byte) (c : Bool) (a : Nat) : (s.setResultAndFlag r b c).byteAt a = s.byteAt a := rfl
@[simp] theorem State.setResultAndFlag_cell (r : Idx) (b : Byte) (c : Bool) (x : Fin 64) (y : Fin 32) : (s.setResultAndFlag r b c).cell x y = s.cell x y := rfl

/-! ### `State.random` -/

@[simp] theorem State.random_pc (b : Byte) (r : Idx) (kk : Byte) : (s.random b r kk).pc = s.pc + 2 := rfl
@[simp] theorem State.random_mem (b : Byte) (r : Idx) (kk : Byte) : (s.random b r kk).mem = s.mem := rfl
@[simp] theorem State.random_disp (b : Byte) (r : Idx) (kk : Byte) : (s.random b r kk).disp = s.disp := rfl
@[simp] theorem State.random_i (b : Byte) (r : Idx) (kk : Byte) : (s.random b r kk).i = s.i := rfl
@[simp] theorem State.random_stack (b : Byte) (r : Idx) (kk : Byte) : (s.random b r kk).stack = s.stack := rfl
@[simp] theorem State.random_sp (b : Byte) (r : Idx) (kk : Byte) : (s.random b r kk).sp = s.sp := rfl
@[simp] theorem State.random_keys (b : Byte) (r : Idx) (kk : Byte) : (s.random b r kk).keys = s.keys := rfl
@[simp] theorem State.random_dt (b : Byte) (r : Idx) (kk : Byte) : (s.random b r kk).dt = s.dt := rfl
@[simp] theorem State.random_st (b : Byte) (r : Idx) (kk : Byte) : (s.random b r kk).st = s.st := rfl
@[simp] theorem State.random_status (b : Byte) (r : Idx) (kk : Byte) : (s.random b r kk).status = s.status := rfl
@[simp] theorem State.random_fontRom (b : Byte) (r : Idx) (kk : Byte) : (s.random b r kk).fontRom = s.fontRom := rfl
@[simp] theorem State.random_draws (b : Byte) (r : Idx) (kk : Byte) : (s.random b r kk).draws = s.draws + 1 := rfl
@[simp] theorem State.random_byteAt (b : Byte) (r : Idx) (kk : Byte) (a : Nat) : (s.random b r kk).byteAt a = s.byteAt a := rfl
@[simp] theorem State.random_cell (b : Byte) (r : Idx) (kk : Byte) (x : Fin 64) (y : Fin 32) : (s.random b r kk).cell x y = s.cell x y := rfl

/-! ### `State.draw` -/

@[simp] theorem State.draw_pc (r q : Idx) (bs : List Byte) : (s.draw r q bs).pc = s.pc := rfl
@[simp] theorem State.draw_mem (r q : Idx) (bs : List Byte) : (s.draw r q bs).mem = s.mem := rfl
@[simp] theorem State.draw_i (r q : Idx) (bs : List Byte) : (s.draw r q bs).i = s.i := rfl
@[simp] theorem State.draw_stack (r q : Idx) (bs : List Byte) : (s.draw r q bs).stack = s.stack := rfl
@[simp] theorem State.draw_sp (r q : Idx) (bs : List Byte) : (s.draw r q bs).sp = s.sp := rfl
@[simp] theorem State.draw_keys (r q : Idx) (bs : List Byte) : (s.draw r q bs).keys = s.keys := rfl
@[simp] theorem State.draw_dt (r q : Idx) (bs : List Byte) : (s.draw r q bs).dt = s.dt := rfl
@[simp] theorem State.draw_st (r q : Idx) (bs : List Byte) : (s.draw r q bs).st = s.st := rfl
@[simp] theorem State.draw_status (r q : Idx) (bs : List Byte) : (s.draw r q bs).status = s.status := rfl
@[simp] theorem State.draw_fontRom (r q : Idx) (bs : List Byte) : (s.draw r q bs).fontRom = s.fontRom := rfl
@[simp] theorem State.draw_draws (r q : Idx) (bs : List Byte) : (s.draw r q bs).draws = s.draws := rfl
@[simp] theorem State.draw_byteAt (r q : Idx) (bs : List Byte) (a : Nat) : (s.draw r q bs).byteAt a = s.byteAt a := rfl

/-! ### `State.enterFault` -/

@[simp] theorem State.enterFault_pc (c : Cause) (o : Option Word) : (s.enterFault c o).pc = s.pc := rfl
@[simp] theorem State.enterFault_mem (c : Cause) (o : Option Word) : (s.enterFault c o).mem = s.mem := rfl
@[simp] theorem State.enterFault_disp (c : Cause) (o : Option Word) : (s.enterFault c o).disp = s.disp := rfl
@[simp] theorem State.enterFault_v (c : Cause) (o : Option Word) : (s.enterFault c o).v = s.v := rfl
@[simp] theorem State.enterFault_i (c : Cause) (o : Option Word) : (s.enterFault c o).i = s.i := rfl
@[simp] theorem State.enterFault_stack (c : Cause) (o : Option Word) : (s.enterFault c o).stack = s.stack := rfl
@[simp] theorem State.enterFault_sp (c : Cause) (o : Option Word) : (s.enterFault c o).sp = s.sp := rfl
@[simp] theorem State.enterFault_keys (c : Cause) (o : Option Word) : (s.enterFault c o).keys = s.keys := rfl
@[simp] theorem State.enterFault_dt (c : Cause) (o : Option Word) : (s.enterFault c o).dt = s.dt := rfl
@[simp] theorem State.enterFault_st (c : Cause) (o : Option Word) : (s.enterFault c o).st = s.st := rfl
@[simp] theorem State.enterFault_status (c : Cause) (o : Option Word) : (s.enterFault c o).status = .faulted ⟨c.kind, some s.pc, o, c.loc⟩ := rfl
@[simp] theorem State.enterFault_fontRom (c : Cause) (o : Option Word) : (s.enterFault c o).fontRom = s.fontRom := rfl
@[simp] theorem State.enterFault_draws (c : Cause) (o : Option Word) : (s.enterFault c o).draws = s.draws := rfl
@[simp] theorem State.enterFault_getV (c : Cause) (o : Option Word) (k : Idx) : (s.enterFault c o).getV k = s.getV k := rfl
@[simp] theorem State.enterFault_byteAt (c : Cause) (o : Option Word) (a : Nat) : (s.enterFault c o).byteAt a = s.byteAt a := rfl
@[simp] theorem State.enterFault_cell (c : Cause) (o : Option Word) (x : Fin 64) (y : Fin 32) : (s.enterFault c o).cell x y = s.cell x y := rfl

/-! ### `State.setKey` -/

@[simp] theorem State.setKey_pc (r : Idx) (b : Bool) : (s.setKey r b).pc = s.pc := rfl
@[simp] theorem State.setKey_mem (r : Idx) (b : Bool) : (s.setKey r b).mem = s.mem := rfl
@[simp] theorem State.setKey_disp (r : Idx) (b : Bool) : (s.setKey r b).disp = s.disp := rfl
@[simp] theorem State.setKey_v (r : Idx) (b : Bool) : (s.setKey r b).v = s.v := rfl
@[simp] theorem State.setKey_i (r : Idx) (b : Bool) : (s.setKey r b).i = s.i := rfl
@[simp] theorem State.setKey_stack (r : Idx) (b : Bool) : (s.setKey r b).stack = s.stack := rfl
@[simp] theorem State.setKey_sp (r : Idx) (b : Bool) : (s.setKey r b).sp = s.sp := rfl
@[simp] theorem State.setKey_keys (r : Idx) (b : Bool) : (s.setKey r b).keys = s.keys.set r b := rfl
@[simp] theorem State.setKey_dt (r : Idx) (b : Bool) : (s.setKey r b).dt = s.dt := rfl
@[simp] theorem State.setKey_st (r : Idx) (b : Bool) : (s.setKey r b).st = s.st := rfl
@[simp] theorem State.setKey_status (r : Idx) (b : Bool) : (s.setKey r b).status = s.status := rfl
@[simp] theorem State.setKey_fontRom (r : Idx) (b : Bool) : (s.setKey r b).fontRom = s.fontRom := rfl
@[simp] theorem State.setKey_draws (r : Idx) (b : Bool) : (s.setKey r b).draws = s.draws := rfl
@[simp] theorem State.setKey_getV (r : Idx) (b : Bool) (k : Idx) : (s.setKey r b).getV k = s.getV k := rfl
@[simp] theorem State.setKey_byteAt (r : Idx) (b : Bool) (a : Nat) : (s.setKey r b).byteAt a = s.byteAt a := rfl
@[simp] theorem State.setKey_cell (r : Idx) (b : Bool) (x : Fin 64) (y : Fin 32) : (s.setKey r b).cell x y = s.cell x y := rfl

/-! ### `State.skipIf` -/

@[simp] theorem State.skipIf_true : s.skipIf true = s.skip := rfl
@[simp] theorem State.skipIf_false : s.skipIf false = s := rfl
@[simp] theorem State.skipIf_pc (c : Bool) : (s.skipIf c).pc = if c then s.pc + 2 else s.pc := by cases c <;> rfl
@[simp] theorem State.skipIf_mem (c : Bool) : (s.skipIf c).mem = s.mem := by cases c <;> rfl
@[simp] theorem State.skipIf_disp (c : Bool) : (s.skipIf c).disp = s.disp := by cases c <;> rfl
@[simp] theorem State.skipIf_v (c : Bool) : (s.skipIf c).v = s.v := by cases c <;> rfl
@[simp] theorem State.skipIf_i (c : Bool) : (s.skipIf c).i = s.i := by cases c <;> rfl
@[simp] theorem State.skipIf_stack (c : Bool) : (s.skipIf c).stack = s.stack := by cases c <;> rfl
@[simp] theorem State.skipIf_sp (c : Bool) : (s.skipIf c).sp = s.sp := by cases c <;> rfl
@[simp] theorem State.skipIf_keys (c : Bool) : (s.skipIf c).keys = s.keys := by cases c <;> rfl
@[simp] theorem State.skipIf_dt (c : Bool) : (s.skipIf c).dt = s.dt := by cases c <;> rfl
@[simp] theorem State.skipIf_st (c : Bool) : (s.skipIf c).st = s.st := by cases c <;> rfl
@[simp] theorem State.skipIf_status (c : Bool) : (s.skipIf c).status = s.status := by cases c <;> rfl
@[simp] theorem State.skipIf_fontRom (c : Bool) : (s.skipIf c).fontRom = s.fontRom := by cases c <;> rfl
@[simp] theorem State.skipIf_draws (c : Bool) : (s.skipIf c).draws = s.draws := by cases c <;> rfl
@[simp] theorem State.skipIf_getV (c : Bool) (k : Idx) : (s.skipIf c).getV k = s.getV k := by cases c <;> rfl
@[simp] theorem State.skipIf_byteAt (c : Bool) (a : Nat) : (s.skipIf c).byteAt a = s.byteAt a := by cases c <;> rfl
@[simp] theorem State.skipIf_cell (c : Bool) (x : Fin 64) (y : Fin 32) : (s.skipIf c).cell x y = s.cell x y := by cases c <;> rfl

/-- A taken skip: the fetch's advance and two more (R105). -/
theorem State.skip_advance_pc : s.advance.skip.pc = s.pc + 4 := by
  show s.pc + 2 + 2 = s.pc + 4
  rw [BitVec.add_assoc]; rfl

/-- Back to this instruction: the advance undone, the whole state as it was (R186). -/
@[simp] theorem State.rewind_advance : s.advance.rewind = s := by
  show { s with pc := s.pc + 2 - 2 } = s
  rw [BitVec.add_sub_cancel]

/-! ### Reads after a register write -/

@[simp] theorem State.setV_getV (r k : Idx) (b : Byte) : (s.setV r b).getV k = if k = r then b else s.getV k := by
  simp only [State.getV, State.setV, Fin.getElem_fin, Vector.getElem_set]
  by_cases h : k = r
  · simp [h]
  · simp only [if_neg h, if_neg fun e : r.val = k.val => h (Fin.ext e.symm)]

@[simp] theorem State.setFlag_getV (c : Bool) (k : Idx) :
    (s.setFlag c).getV k = if k = vf then flagByte c else s.getV k := State.setV_getV s vf k _

@[simp] theorem State.setResultAndFlag_getV (r k : Idx) (b : Byte) (c : Bool) :
    (s.setResultAndFlag r b c).getV k = if k = vf then flagByte c else if k = r then b else s.getV k := by
  simp [State.setResultAndFlag]

@[simp] theorem State.setVPrefix_getV (bs : List Byte) (k : Idx) :
    (s.setVPrefix bs).getV k = bs.getD k.val (s.getV k) := by
  simp [State.getV, State.setVPrefix]

@[simp] theorem State.random_getV (r : Byte) (x k : Idx) (kk : Byte) :
    (s.random r x kk).getV k = if k = x then r &&& kk else s.getV k := by
  show (s.advance.setV x (r &&& kk)).getV k = _
  simp

/-! ### The state after reset -/

@[simp] theorem State.reset_getV (k : Idx) : State.reset.getV k = 0 := by
  simp [State.getV, State.reset]

@[simp] theorem State.reset_cell (x : Fin 64) (y : Fin 32) : State.reset.cell x y = false := by
  simp [State.cell, Display.cell, State.reset]

end Sys2Proof.Machine
end

