-- ==== Sys2Proof/Laws/Memory.lean ====
section
/-! SUPPORT. Memory: reading after writing, and the canonical form that every memory operation keeps. -/

namespace Sys2Proof.Machine

/-! ## Reading after writing -/

theorem Memory.find_insert (m : Memory) (a b : Nat) (v : Byte) :
    (m.insert a v).find b = if b = a then some v else m.find b := by
  induction m with
  | nil => rfl
  | cons c m ih =>
    obtain ⟨d, u⟩ := c
    simp only [Memory.insert]
    split
    · simp only [Memory.find]
    · split
      · subst_vars; simp only [Memory.find]; split <;> rfl
      · simp only [Memory.find, ih]; split <;> split <;> simp_all

theorem Memory.find_erase (m : Memory) (a b : Nat) :
    (m.erase a).find b = if b = a then none else m.find b := by
  induction m with
  | nil => simp [Memory.erase, Memory.find]
  | cons c m ih =>
    obtain ⟨d, u⟩ := c
    have ih' : Memory.find (List.filter (fun c => c.1 != a) m) b = if b = a then none else Memory.find m b := ih
    simp only [Memory.erase, List.filter_cons]
    by_cases h : d = a
    · simp only [h, bne_self_eq_false, Bool.false_eq_true, if_false, ih', Memory.find]
      split <;> simp_all
    · simp only [bne_iff_ne, ne_eq, h, not_false_eq_true, if_true, Memory.find, ih']
      split <;> split <;> simp_all

/-- A read after a write: the byte written, or what the address held before. -/
theorem Memory.read_write (font : Vector Byte Config.fontSize) (m : Memory) (a b : Nat) (v : Byte) :
    (Memory.write font m a v).read font b = if b = a then v else m.read font b := by
  unfold Memory.write Memory.read
  split <;> (simp only [Memory.find_insert, Memory.find_erase]; split <;> simp_all)

theorem Memory.read_nil (font : Vector Byte Config.fontSize) (a : Nat) :
    Memory.read font [] a = Memory.unlisted font a := rfl

theorem Memory.unlisted_of_lt (font : Vector Byte Config.fontSize) (a : Nat) (h : a < 80) :
    Memory.unlisted font a = font[a] := dif_pos h

theorem Memory.unlisted_of_ge (font : Vector Byte Config.fontSize) (a : Nat) (h : 80 ≤ a) :
    Memory.unlisted font a = 0 := dif_neg (by simp only [Config.fontSize]; omega)

/-- Reading after writing a run of bytes at `base`. -/
theorem Memory.read_writeMany (font : Vector Byte Config.fontSize) (m : Memory) (base : Nat) (bs : List Byte)
    (a : Nat) : (Memory.writeMany font m base bs).read font a =
      if h : base ≤ a ∧ a < base + bs.length then bs[a - base] else m.read font a := by
  induction bs generalizing m base with
  | nil => simp [Memory.writeMany]
  | cons b bs ih =>
    simp only [Memory.writeMany, ih, Memory.read_write, List.length_cons]
    by_cases h1 : a = base
    · subst h1; simp
    · by_cases h2 : base + 1 ≤ a ∧ a < base + 1 + bs.length
      · have h3 : base ≤ a ∧ a < base + (bs.length + 1) := by omega
        have h4 : a - base = (a - (base + 1)) + 1 := by omega
        simp only [h2, h3, and_self, dif_pos, h4, List.getElem_cons_succ]
      · have h3 : ¬ (base ≤ a ∧ a < base + (bs.length + 1)) := by omega
        simp only [h2, h3, dif_neg, not_false_eq_true, if_neg h1]

/-! ## The canonical form -/

theorem Memory.risingFrom_mono {m : Memory} {lo hi : Nat} (h : lo ≤ hi) (hm : Memory.risingFrom hi m = true) :
    Memory.risingFrom lo m = true := by
  cases m with
  | nil => rfl
  | cons c m =>
    simp only [Memory.risingFrom, Bool.and_eq_true, decide_eq_true_eq] at hm ⊢
    exact ⟨by omega, hm.2⟩

theorem Memory.risingFrom_insert {m : Memory} {lo a : Nat} (v : Byte) (h : lo ≤ a)
    (hm : Memory.risingFrom lo m = true) : Memory.risingFrom lo (m.insert a v) = true := by
  induction m generalizing lo with
  | nil => simp [Memory.insert, Memory.risingFrom, h]
  | cons c m ih =>
    simp only [Memory.risingFrom, Bool.and_eq_true, decide_eq_true_eq] at hm
    simp only [Memory.insert]
    split
    · simp only [Memory.risingFrom, Bool.and_eq_true, decide_eq_true_eq]
      exact ⟨h, by omega, hm.2⟩
    · split
      · subst_vars
        simp only [Memory.risingFrom, Bool.and_eq_true, decide_eq_true_eq]
        exact ⟨h, hm.2⟩
      · simp only [Memory.risingFrom, Bool.and_eq_true, decide_eq_true_eq]
        exact ⟨hm.1, ih (by omega) hm.2⟩

theorem Memory.risingFrom_filter {m : Memory} {lo : Nat} (p : Host.Cell → Bool)
    (hm : Memory.risingFrom lo m = true) : Memory.risingFrom lo (m.filter p) = true := by
  induction m generalizing lo with
  | nil => rfl
  | cons c m ih =>
    simp only [Memory.risingFrom, Bool.and_eq_true, decide_eq_true_eq] at hm
    rw [List.filter_cons]
    split
    · simp only [Memory.risingFrom, Bool.and_eq_true, decide_eq_true_eq]
      exact ⟨hm.1, ih hm.2⟩
    · exact ih (Memory.risingFrom_mono (by omega) hm.2)

theorem Memory.mem_insert {m : Memory} {a : Nat} {v : Byte} {c : Host.Cell} (h : c ∈ m.insert a v) :
    c = (a, v) ∨ c ∈ m := by
  induction m with
  | nil => simpa [Memory.insert] using h
  | cons d m ih =>
    simp only [Memory.insert] at h
    split at h
    · simpa using h
    · split at h
      · rcases List.mem_cons.1 h with h | h
        · exact .inl h
        · exact .inr (List.mem_cons_of_mem _ h)
      · rcases List.mem_cons.1 h with h | h
        · exact .inr (h ▸ List.mem_cons_self)
        · exact (ih h).imp_right (List.mem_cons_of_mem _)

/-- The canonical form, as a rising list whose entries are below 4096 and differ from the reset contents. -/
theorem Memory.wf_iff (font : Vector Byte Config.fontSize) (m : Memory) :
    Memory.wf font m = true ↔
      Memory.risingFrom 0 m = true ∧ ∀ c ∈ m, c.1 < Config.memSize ∧ c.2 ≠ Memory.unlisted font c.1 := by
  simp [Memory.wf]

theorem Memory.wf_nil (font : Vector Byte Config.fontSize) : Memory.wf font [] = true := rfl

/-- Every write inside memory keeps the canonical form. -/
theorem Memory.wf_write {font : Vector Byte Config.fontSize} {m : Memory} (a : Nat) (v : Byte)
    (ha : a < Config.memSize) (hm : Memory.wf font m = true) : Memory.wf font (Memory.write font m a v) = true := by
  obtain ⟨hr, hall⟩ := (Memory.wf_iff font m).1 hm
  refine (Memory.wf_iff font _).2 ?_
  unfold Memory.write
  split
  · exact ⟨Memory.risingFrom_filter _ hr, fun c hc => hall c (List.mem_filter.1 hc).1⟩
  · refine ⟨Memory.risingFrom_insert v (Nat.zero_le a) hr, fun c hc => ?_⟩
    rcases Memory.mem_insert hc with rfl | hc
    · exact ⟨ha, ‹_›⟩
    · exact hall c hc

theorem Memory.wf_writeMany {font : Vector Byte Config.fontSize} {m : Memory} (base : Nat) (bs : List Byte)
    (ha : base + bs.length ≤ Config.memSize) (hm : Memory.wf font m = true) :
    Memory.wf font (Memory.writeMany font m base bs) = true := by
  induction bs generalizing m base with
  | nil => exact hm
  | cons b bs ih =>
    simp only [List.length_cons] at ha
    exact ih (base + 1) (by omega) (Memory.wf_write base b (by omega) hm)

/-- Reset memory has the canonical form. -/
theorem State.reset_wf : Memory.wf State.reset.fontRom State.reset.mem = true := rfl

/-! ## The access operations of the state -/

/-- Everything `memReadMany` can do: the bytes in order, or the lowest address outside memory (R204). -/
theorem State.memReadMany_eq (s : State) (base n : Nat) : s.memReadMany base n =
    if n = 0 ∨ base + n ≤ 4096 then .ok ((List.range n).map fun k => s.byteAt (base + k))
    else .error (.memory (max base 4096)) := by
  induction n generalizing base with
  | zero => simp [State.memReadMany]
  | succ n ih =>
    simp only [State.memReadMany, State.memRead, ih, Config.memSize]
    by_cases h0 : base < 4096
    · by_cases h1 : base + (n + 1) ≤ 4096
      · have h2 : n = 0 ∨ base + 1 + n ≤ 4096 := by omega
        simp only [if_pos h0, if_pos h2, if_pos (Or.inr h1 : n + 1 = 0 ∨ _), List.range_succ_eq_map, List.map_cons,
          List.map_map, Nat.add_zero]
        congr 3
        funext k
        simp only [Function.comp_apply]
        congr 1
        omega
      · have h2 : ¬ (n = 0 ∨ base + 1 + n ≤ 4096) := by omega
        have h3 : ¬ (n + 1 = 0 ∨ base + (n + 1) ≤ 4096) := by omega
        have h4 : max (base + 1) 4096 = max base 4096 := by omega
        simp only [if_pos h0, if_neg h2, if_neg h3, h4]
    · have h3 : ¬ (n + 1 = 0 ∨ base + (n + 1) ≤ 4096) := by omega
      have h4 : max base 4096 = base := by omega
      simp only [if_neg h0, if_neg h3, h4]

/-- Everything `memWriteMany` can do: all the bytes, or the lowest address outside memory (R204). -/
theorem State.memWriteMany_eq (s : State) (base : Nat) (bs : List Byte) : s.memWriteMany base bs =
    if bs = [] ∨ base + bs.length ≤ 4096 then .ok { s with mem := Memory.writeMany s.fontRom s.mem base bs }
    else .error (.memory (max base 4096)) := by
  induction bs generalizing s base with
  | nil => simp [State.memWriteMany, Memory.writeMany]
  | cons b bs ih =>
    simp only [State.memWriteMany, State.memWrite, Config.memSize, List.length_cons]
    by_cases h0 : base < 4096
    · by_cases h1 : base + (bs.length + 1) ≤ 4096
      · have h2 : bs = [] ∨ base + 1 + bs.length ≤ 4096 := by omega
        simp only [if_pos h0, ih, if_pos h2, if_pos (Or.inr h1 : b :: bs = [] ∨ _), Memory.writeMany]
      · have h2 : ¬ (bs = [] ∨ base + 1 + bs.length ≤ 4096) := by
          rintro (rfl | h)
          · simp at h1; omega
          · omega
        have h3 : ¬ (b :: bs = [] ∨ base + (bs.length + 1) ≤ 4096) := by simp; omega
        have h4 : max (base + 1) 4096 = max base 4096 := by omega
        simp only [if_pos h0, ih, if_neg h2, if_neg h3, h4]
    · have h3 : ¬ (b :: bs = [] ∨ base + (bs.length + 1) ≤ 4096) := by simp; omega
      have h4 : max base 4096 = base := by omega
      simp only [if_neg h0, if_neg h3, h4]

theorem State.memRead_ok (s : State) {a : Nat} (h : a < 4096) : s.memRead a = .ok (s.byteAt a) := if_pos h

theorem State.memRead_error (s : State) {a : Nat} (h : 4096 ≤ a) : s.memRead a = .error (.memory a) :=
  if_neg (Nat.not_lt.2 h)

/-- Everything the fetch can do (R84, R204). -/
theorem State.fetchWord_eq (s : State) : s.fetchWord =
    if s.pc.toNat + 1 < 4096 then .ok (wordOfBytes (s.byteAt s.pc.toNat) (s.byteAt (s.pc.toNat + 1)))
    else .error (.memory (max s.pc.toNat 4096)) := by
  unfold State.fetchWord
  by_cases h : s.pc.toNat + 1 < 4096
  · simp only [s.memRead_ok (show s.pc.toNat < 4096 by omega), s.memRead_ok h, if_pos h]
  · by_cases h' : s.pc.toNat < 4096
    · have h4 : max s.pc.toNat 4096 = s.pc.toNat + 1 := by omega
      simp only [s.memRead_ok h', s.memRead_error (show 4096 ≤ s.pc.toNat + 1 by omega), if_neg h, h4]
    · have h4 : max s.pc.toNat 4096 = s.pc.toNat := by omega
      simp only [s.memRead_error (show 4096 ≤ s.pc.toNat by omega), if_neg h, h4]

end Sys2Proof.Machine
end

