-- ==== Sys2Proof/Laws/Ops.lean ====
section
/-! SUPPORT. One lemma per shared operation that says everything it can do: the stack, the keys, the end of an
instruction, the flags, the operands. -/

namespace Sys2Proof.Machine

/-! ## Call stack -/

/-- Everything a push can do (R30, R104). -/
theorem State.pushPc_cases (s : State) :
    (s.sp.val = 16 ∧ s.pushPc = .error ⟨.stackOverflow, none⟩) ∨
    ∃ h : s.sp.val < 16, s.pushPc =
      .ok { s with stack := s.stack.set s.sp.val s.pc, sp := ⟨s.sp.val + 1, by omega⟩ } := by
  by_cases h : s.sp.val < 16
  · exact .inr ⟨h, dif_pos h⟩
  · exact .inl ⟨by omega, dif_neg h⟩

/-- Everything a pop can do (R30, R102). -/
theorem State.popPc_cases (s : State) :
    (s.sp.val = 0 ∧ s.popPc = .error ⟨.stackUnderflow, none⟩) ∨
    ∃ _ : 0 < s.sp.val, s.popPc =
      .ok { s with sp := ⟨s.sp.val - 1, by omega⟩, pc := s.stack[s.sp.val - 1]'(by omega) } := by
  by_cases h : s.sp.val = 0
  · exact .inl ⟨h, dif_pos h⟩
  · exact .inr ⟨by omega, dif_neg h⟩

/-! ## Keys -/

theorem State.keyState_ok (s : State) {k : Nat} (h : k < 16) : s.keyState k = .ok s.keys[k] := dif_pos h

theorem State.keyState_error (s : State) {k : Nat} (h : 16 ≤ k) : s.keyState k = .error (.key k) :=
  dif_neg (Nat.not_lt.2 h)

/-- `lowest_pressed()` is NONE exactly when no key is pressed (R185). -/
theorem State.lowestPressed_eq_none (s : State) : s.lowestPressed = none ↔ ∀ k : Idx, s.keys[k] = false := by
  simp [State.lowestPressed]

/-- `lowest_pressed()` is k exactly when k is pressed and no lower key is (R185). -/
theorem State.lowestPressed_eq_some (s : State) (k : Idx) :
    s.lowestPressed = some k ↔ s.keys[k] = true ∧ ∀ j : Idx, j < k → s.keys[j] = false := by
  simp only [State.lowestPressed, List.find?_eq_some_iff_append]
  constructor
  · rintro ⟨hk, as, bs, he, hall⟩
    refine ⟨hk, fun j hj => ?_⟩
    have hsort : (as ++ k :: bs).Pairwise (· < ·) := he ▸ List.pairwise_lt_finRange 16
    have hmem : j ∈ as ++ k :: bs := he ▸ List.mem_finRange j
    rcases List.mem_append.1 hmem with h | h
    · simpa using hall j h
    · rcases List.mem_cons.1 h with h | h
      · exact absurd (h ▸ hj) (lt_irrefl _)
      · have := (List.pairwise_cons.1 (List.pairwise_append.1 hsort).2.1).1 j h
        exact absurd this (not_lt.2 hj.le)
  · rintro ⟨hk, hlow⟩
    refine ⟨hk, ?_⟩
    obtain ⟨as, bs, he⟩ := List.append_of_mem (List.mem_finRange k)
    have hsort : (as ++ k :: bs).Pairwise (· < ·) := he ▸ List.pairwise_lt_finRange 16
    refine ⟨as, bs, he, fun j hj => ?_⟩
    have := (List.pairwise_append.1 hsort).2.2 j hj k List.mem_cons_self
    simpa using hlow j this

/-! ## The end of an instruction -/

@[simp] theorem State.conclude_ok (s t : State) (i : Instr) : s.conclude i (.ok t) = .next t := rfl

@[simp] theorem State.conclude_error (s : State) (i : Instr) (c : Cause) :
    s.conclude i (.error c) = .next (s.enterFault c (some (encode i))) := rfl

/-- Everything the end of an instruction can do (R12): the instruction's own effect, or the fault entry. -/
theorem State.conclude_cases {s t : State} {i : Instr} {r : Except Cause State} (h : s.conclude i r = .next t) :
    r = .ok t ∨ ∃ c, r = .error c ∧ t = s.enterFault c (some (encode i)) := by
  cases r with
  | ok u => exact .inl (congrArg _ (Host.Outcome.next.inj h))
  | error c => exact .inr ⟨c, rfl, (Host.Outcome.next.inj h).symm⟩

/-- Fault entry keeps every element but the status (R205). -/
theorem State.enterFault_eq (s : State) (c : Cause) (w : Option Word) :
    s.enterFault c w = { s with status := .faulted ⟨c.kind, some s.pc, w, c.loc⟩ } := rfl

/-! ## Flags, as the integer laws of R142 read them -/

theorem carry_iff (a b : Byte) : carry a b = true ↔ 256 ≤ a.toNat + b.toNat := decide_eq_true_iff

theorem noBorrow_iff (a b : Byte) : noBorrow a b = true ↔ b.toNat ≤ a.toNat := decide_eq_true_iff

theorem shiftedOutRight_iff (a : Byte) : shiftedOutRight a = true ↔ a.toNat % 2 = 1 := by
  simp [shiftedOutRight, BitVec.getLsbD, Nat.testBit_zero]

theorem shiftedOutLeft_iff (a : Byte) : shiftedOutLeft a = true ↔ 128 ≤ a.toNat := by
  have := a.isLt
  simp only [shiftedOutLeft, BitVec.getLsbD, Nat.testBit_eq_decide_div_mod_eq, decide_eq_true_eq]
  omega

@[simp] theorem flagByte_true : flagByte true = 1 := rfl

@[simp] theorem flagByte_false : flagByte false = 0 := rfl

/-! ## Operands -/

@[simp] theorem State.transferAddr_zero (s : State) : s.transferAddr 0 = s.i.toNat := rfl

@[simp] theorem bcdDigits_length (b : Byte) : (bcdDigits b).length = 3 := rfl

@[simp] theorem State.getVPrefix_length (s : State) (x : Idx) : (s.getVPrefix x).length = x.val + 1 := by
  simp [State.getVPrefix]

/-- The k-th byte that LD [I], Vx stores is V[k] (R155). -/
theorem State.getVPrefix_getElem (s : State) (x : Idx) (k : Nat) (h : k < (s.getVPrefix x).length) :
    (s.getVPrefix x)[k] = s.getV ⟨k, by simp at h; omega⟩ := by
  simp [State.getVPrefix, State.getV]

theorem zextNnn_toNat (nnn : BitVec 12) : (zextNnn nnn).toNat = nnn.toNat := by
  have := nnn.isLt
  simp [zextNnn]; omega

theorem zextByte_toNat (b : Byte) : (zextByte b).toNat = b.toNat := by
  have := b.isLt
  simp [zextByte]; omega

theorem glyphAddr_toNat (b : Byte) : (glyphAddr b).toNat = b.toNat * 5 := by
  have := b.isLt
  simp [glyphAddr, zextByte]; omega

end Sys2Proof.Machine
end

