-- ==== Sys2Proof/Laws/PerInstr.lean ====
section
/-! SUPPORT. Per instruction: the word the encoder writes matches the row of the opcode map (R86) that carries the
instruction's mnemonic. -/

namespace Sys2Proof.Laws.RowMatch

/-- The mnemonic of an instruction's row. -/
def mnemonic : Instr → String
  | .nop => "NOP"
  | .cls => "CLS"
  | .ret => "RET"
  | .jp _ => "JP_nnn"
  | .call _ => "CALL_nnn"
  | .seImm _ _ => "SE_Vx__kk"
  | .sneImm _ _ => "SNE_Vx__kk"
  | .seReg _ _ => "SE_Vx__Vy"
  | .ldImm _ _ => "LD_Vx__kk"
  | .addImm _ _ => "ADD_Vx__kk"
  | .ldReg _ _ => "LD_Vx__Vy"
  | .orReg _ _ => "OR_Vx__Vy"
  | .andReg _ _ => "AND_Vx__Vy"
  | .xorReg _ _ => "XOR_Vx__Vy"
  | .addReg _ _ => "ADD_Vx__Vy"
  | .subReg _ _ => "SUB_Vx__Vy"
  | .shr _ => "SHR_Vx"
  | .subnReg _ _ => "SUBN_Vx__Vy"
  | .shl _ => "SHL_Vx"
  | .sneReg _ _ => "SNE_Vx__Vy"
  | .ldI _ => "LD_I__nnn"
  | .jpV0 _ => "JP_V0__nnn"
  | .rnd _ _ => "RND_Vx__kk"
  | .drw _ _ _ => "DRW_Vx__Vy__n"
  | .skp _ => "SKP_Vx"
  | .sknp _ => "SKNP_Vx"
  | .ldVxDt _ => "LD_Vx__DT"
  | .ldVxK _ => "LD_Vx__K"
  | .ldDtVx _ => "LD_DT__Vx"
  | .ldStVx _ => "LD_ST__Vx"
  | .addI _ => "ADD_I__Vx"
  | .ldF _ => "LD_F__Vx"
  | .ldB _ => "LD_B__Vx"
  | .storeRegs _ => "LD__I___Vx"
  | .loadRegs _ => "LD_Vx___I"

/-- The row of the map with the instruction's mnemonic exists, and it matches the instruction's word. -/
def Statement (i : Instr) : Prop :=
  (opcodeMap.find? fun r => r.mnemonic == mnemonic i).any (·.matchesWord (encode i)) = true

theorem of_row (i : Instr) (r : OpcodeRow) (h : (opcodeMap.find? fun q => q.mnemonic == mnemonic i) = some r)
    (hm : encode i &&& r.mask = r.pattern) : Statement i := by
  simp [Statement, h, OpcodeRow.matchesWord, hm]

theorem nop : Statement .nop :=
  of_row _ ⟨"NOP", 0xFFFF, 0x0000⟩ rfl (by decide)

theorem cls : Statement .cls :=
  of_row _ ⟨"CLS", 0xFFFF, 0x00E0⟩ rfl (by decide)

theorem ret : Statement .ret :=
  of_row _ ⟨"RET", 0xFFFF, 0x00EE⟩ rfl (by decide)

theorem jp (nnn : BitVec 12) : Statement (.jp nnn) :=
  of_row _ ⟨"JP_nnn", 0xF000, 0x1000⟩ rfl (by
    show encode _ &&& 0xF000#16 = 0x1000#16
    rw [and_F000]
    simp [encode]
    rfl)

theorem call (nnn : BitVec 12) : Statement (.call nnn) :=
  of_row _ ⟨"CALL_nnn", 0xF000, 0x2000⟩ rfl (by
    show encode _ &&& 0xF000#16 = 0x2000#16
    rw [and_F000]
    simp [encode]
    rfl)

theorem seImm (x : Idx) (kk : Byte) : Statement (.seImm x kk) :=
  of_row _ ⟨"SE_Vx__kk", 0xF000, 0x3000⟩ rfl (by
    show encode _ &&& 0xF000#16 = 0x3000#16
    rw [and_F000]
    simp [encode]
    rfl)

theorem sneImm (x : Idx) (kk : Byte) : Statement (.sneImm x kk) :=
  of_row _ ⟨"SNE_Vx__kk", 0xF000, 0x4000⟩ rfl (by
    show encode _ &&& 0xF000#16 = 0x4000#16
    rw [and_F000]
    simp [encode]
    rfl)

theorem seReg (x : Idx) (y : Idx) : Statement (.seReg x y) :=
  of_row _ ⟨"SE_Vx__Vy", 0xF00F, 0x5000⟩ rfl (by
    show encode _ &&& 0xF00F#16 = 0x5000#16
    rw [and_F00F]
    simp [encode]
    rfl)

theorem ldImm (x : Idx) (kk : Byte) : Statement (.ldImm x kk) :=
  of_row _ ⟨"LD_Vx__kk", 0xF000, 0x6000⟩ rfl (by
    show encode _ &&& 0xF000#16 = 0x6000#16
    rw [and_F000]
    simp [encode]
    rfl)

theorem addImm (x : Idx) (kk : Byte) : Statement (.addImm x kk) :=
  of_row _ ⟨"ADD_Vx__kk", 0xF000, 0x7000⟩ rfl (by
    show encode _ &&& 0xF000#16 = 0x7000#16
    rw [and_F000]
    simp [encode]
    rfl)

theorem ldReg (x : Idx) (y : Idx) : Statement (.ldReg x y) :=
  of_row _ ⟨"LD_Vx__Vy", 0xF00F, 0x8000⟩ rfl (by
    show encode _ &&& 0xF00F#16 = 0x8000#16
    rw [and_F00F]
    simp [encode]
    rfl)

theorem orReg (x : Idx) (y : Idx) : Statement (.orReg x y) :=
  of_row _ ⟨"OR_Vx__Vy", 0xF00F, 0x8001⟩ rfl (by
    show encode _ &&& 0xF00F#16 = 0x8001#16
    rw [and_F00F]
    simp [encode]
    rfl)

theorem andReg (x : Idx) (y : Idx) : Statement (.andReg x y) :=
  of_row _ ⟨"AND_Vx__Vy", 0xF00F, 0x8002⟩ rfl (by
    show encode _ &&& 0xF00F#16 = 0x8002#16
    rw [and_F00F]
    simp [encode]
    rfl)

theorem xorReg (x : Idx) (y : Idx) : Statement (.xorReg x y) :=
  of_row _ ⟨"XOR_Vx__Vy", 0xF00F, 0x8003⟩ rfl (by
    show encode _ &&& 0xF00F#16 = 0x8003#16
    rw [and_F00F]
    simp [encode]
    rfl)

theorem addReg (x : Idx) (y : Idx) : Statement (.addReg x y) :=
  of_row _ ⟨"ADD_Vx__Vy", 0xF00F, 0x8004⟩ rfl (by
    show encode _ &&& 0xF00F#16 = 0x8004#16
    rw [and_F00F]
    simp [encode]
    rfl)

theorem subReg (x : Idx) (y : Idx) : Statement (.subReg x y) :=
  of_row _ ⟨"SUB_Vx__Vy", 0xF00F, 0x8005⟩ rfl (by
    show encode _ &&& 0xF00F#16 = 0x8005#16
    rw [and_F00F]
    simp [encode]
    rfl)

theorem shr (x : Idx) : Statement (.shr x) :=
  of_row _ ⟨"SHR_Vx", 0xF00F, 0x8006⟩ rfl (by
    show encode _ &&& 0xF00F#16 = 0x8006#16
    rw [and_F00F]
    simp [encode]
    rfl)

theorem subnReg (x : Idx) (y : Idx) : Statement (.subnReg x y) :=
  of_row _ ⟨"SUBN_Vx__Vy", 0xF00F, 0x8007⟩ rfl (by
    show encode _ &&& 0xF00F#16 = 0x8007#16
    rw [and_F00F]
    simp [encode]
    rfl)

theorem shl (x : Idx) : Statement (.shl x) :=
  of_row _ ⟨"SHL_Vx", 0xF00F, 0x800E⟩ rfl (by
    show encode _ &&& 0xF00F#16 = 0x800E#16
    rw [and_F00F]
    simp [encode]
    rfl)

theorem sneReg (x : Idx) (y : Idx) : Statement (.sneReg x y) :=
  of_row _ ⟨"SNE_Vx__Vy", 0xF00F, 0x9000⟩ rfl (by
    show encode _ &&& 0xF00F#16 = 0x9000#16
    rw [and_F00F]
    simp [encode]
    rfl)

theorem ldI (nnn : BitVec 12) : Statement (.ldI nnn) :=
  of_row _ ⟨"LD_I__nnn", 0xF000, 0xA000⟩ rfl (by
    show encode _ &&& 0xF000#16 = 0xA000#16
    rw [and_F000]
    simp [encode]
    rfl)

theorem jpV0 (nnn : BitVec 12) : Statement (.jpV0 nnn) :=
  of_row _ ⟨"JP_V0__nnn", 0xF000, 0xB000⟩ rfl (by
    show encode _ &&& 0xF000#16 = 0xB000#16
    rw [and_F000]
    simp [encode]
    rfl)

theorem rnd (x : Idx) (kk : Byte) : Statement (.rnd x kk) :=
  of_row _ ⟨"RND_Vx__kk", 0xF000, 0xC000⟩ rfl (by
    show encode _ &&& 0xF000#16 = 0xC000#16
    rw [and_F000]
    simp [encode]
    rfl)

theorem drw (x : Idx) (y : Idx) (n : Idx) : Statement (.drw x y n) :=
  of_row _ ⟨"DRW_Vx__Vy__n", 0xF000, 0xD000⟩ rfl (by
    show encode _ &&& 0xF000#16 = 0xD000#16
    rw [and_F000]
    simp [encode]
    rfl)

theorem skp (x : Idx) : Statement (.skp x) :=
  of_row _ ⟨"SKP_Vx", 0xF0FF, 0xE09E⟩ rfl (by
    show encode _ &&& 0xF0FF#16 = 0xE09E#16
    rw [and_F0FF]
    simp [encode]
    rfl)

theorem sknp (x : Idx) : Statement (.sknp x) :=
  of_row _ ⟨"SKNP_Vx", 0xF0FF, 0xE0A1⟩ rfl (by
    show encode _ &&& 0xF0FF#16 = 0xE0A1#16
    rw [and_F0FF]
    simp [encode]
    rfl)

theorem ldVxDt (x : Idx) : Statement (.ldVxDt x) :=
  of_row _ ⟨"LD_Vx__DT", 0xF0FF, 0xF007⟩ rfl (by
    show encode _ &&& 0xF0FF#16 = 0xF007#16
    rw [and_F0FF]
    simp [encode]
    rfl)

theorem ldVxK (x : Idx) : Statement (.ldVxK x) :=
  of_row _ ⟨"LD_Vx__K", 0xF0FF, 0xF00A⟩ rfl (by
    show encode _ &&& 0xF0FF#16 = 0xF00A#16
    rw [and_F0FF]
    simp [encode]
    rfl)

theorem ldDtVx (x : Idx) : Statement (.ldDtVx x) :=
  of_row _ ⟨"LD_DT__Vx", 0xF0FF, 0xF015⟩ rfl (by
    show encode _ &&& 0xF0FF#16 = 0xF015#16
    rw [and_F0FF]
    simp [encode]
    rfl)

theorem ldStVx (x : Idx) : Statement (.ldStVx x) :=
  of_row _ ⟨"LD_ST__Vx", 0xF0FF, 0xF018⟩ rfl (by
    show encode _ &&& 0xF0FF#16 = 0xF018#16
    rw [and_F0FF]
    simp [encode]
    rfl)

theorem addI (x : Idx) : Statement (.addI x) :=
  of_row _ ⟨"ADD_I__Vx", 0xF0FF, 0xF01E⟩ rfl (by
    show encode _ &&& 0xF0FF#16 = 0xF01E#16
    rw [and_F0FF]
    simp [encode]
    rfl)

theorem ldF (x : Idx) : Statement (.ldF x) :=
  of_row _ ⟨"LD_F__Vx", 0xF0FF, 0xF029⟩ rfl (by
    show encode _ &&& 0xF0FF#16 = 0xF029#16
    rw [and_F0FF]
    simp [encode]
    rfl)

theorem ldB (x : Idx) : Statement (.ldB x) :=
  of_row _ ⟨"LD_B__Vx", 0xF0FF, 0xF033⟩ rfl (by
    show encode _ &&& 0xF0FF#16 = 0xF033#16
    rw [and_F0FF]
    simp [encode]
    rfl)

theorem storeRegs (x : Idx) : Statement (.storeRegs x) :=
  of_row _ ⟨"LD__I___Vx", 0xF0FF, 0xF055⟩ rfl (by
    show encode _ &&& 0xF0FF#16 = 0xF055#16
    rw [and_F0FF]
    simp [encode]
    rfl)

theorem loadRegs (x : Idx) : Statement (.loadRegs x) :=
  of_row _ ⟨"LD_Vx___I", 0xF0FF, 0xF065⟩ rfl (by
    show encode _ &&& 0xF0FF#16 = 0xF065#16
    rw [and_F0FF]
    simp [encode]
    rfl)

end Sys2Proof.Laws.RowMatch
end

