-- ==== Sys2Proof/Laws/Screen.lean ====
section
/-! SUPPORT. The display: one cell after a toggle, and what a sprite draw does to every cell and to the collision. -/

namespace Sys2Proof.Machine

@[simp] theorem Display.off_cell (c : Fin 64) (r : Fin 32) : Display.cell Display.off c r = false := by
  simp [Display.cell, Display.off]

/-- Two displays with equal cells are equal. -/
theorem Display.ext_cell {d e : Display} (h : ∀ c r, Display.cell d c r = Display.cell e c r) : d = e := by
  refine Vector.ext fun r hr => Vector.ext fun c hc => ?_
  exact h ⟨c, hc⟩ ⟨r, hr⟩

theorem Display.toggle_cell (d : Display) (x c : Fin 64) (y r : Fin 32) :
    Display.cell (Display.toggle d x y) c r = (Display.cell d c r ^^ (decide (c = x) && decide (r = y))) := by
  simp only [Display.cell, Display.toggle, Fin.getElem_fin, Vector.getElem_set]
  by_cases hr : y.val = r.val
  · have hr' : r = y := Fin.ext hr.symm
    subst hr'
    simp only [if_true, Vector.getElem_set]
    by_cases hc : x.val = c.val
    · have hc' : c = x := Fin.ext hc.symm
      subst hc'
      simp
    · have hc' : c ≠ x := fun e => hc (congrArg Fin.val e.symm)
      simp [hc, hc']
  · have hr' : r ≠ y := fun e => hr (congrArg Fin.val e.symm)
    simp [hr, hr']

/-! ## One sprite byte -/

theorem wrapColumn_inj {cx : Byte} {j k : Nat} (h : wrapColumn cx j = wrapColumn cx k) (hjk : j ≤ k)
    (hk : k < j + 64) : j = k := by
  have : (cx.toNat + j) % 64 = (cx.toNat + k) % 64 := congrArg Fin.val h
  omega

theorem wrapRow_inj {cy : Byte} {j k : Nat} (h : wrapRow cy j = wrapRow cy k) (hjk : j ≤ k) (hk : k < j + 32) :
    j = k := by
  have : (cy.toNat + j) % 32 = (cy.toNat + k) % 32 := congrArg Fin.val h
  omega

/-- The set bits of columns `col`, …, `col + n - 1` of a sprite byte fall on column c. -/
def ColumnHit (cx : Byte) (b : Byte) (col n : Nat) (c : Fin 64) : Prop :=
  ∃ k, col ≤ k ∧ k < col + n ∧ spriteBit b k = true ∧ wrapColumn cx k = c

/-- Everything one sprite byte does (R172): its cells are toggled, the others kept, and a collision is an on cell under a
set bit. -/
theorem drawColumns_spec (cx : Byte) (y : Fin 32) (b : Byte) (col n : Nat) (hn : n ≤ 64) (d : Drawing) :
    (∀ c r, (r = y ∧ ColumnHit cx b col n c → Display.cell (drawColumns cx y b col n d).1 c r = !Display.cell d.1 c r) ∧
      (¬(r = y ∧ ColumnHit cx b col n c) → Display.cell (drawColumns cx y b col n d).1 c r = Display.cell d.1 c r)) ∧
    ((drawColumns cx y b col n d).2 = true ↔
      d.2 = true ∨ ∃ c, ColumnHit cx b col n c ∧ Display.cell d.1 c y = true) := by
  induction n generalizing col d with
  | zero =>
    have hno : ∀ c, ¬ColumnHit cx b col 0 c := fun c ⟨k, h1, h2, _⟩ => by omega
    simp [drawColumns, hno]
  | succ n ih =>
    obtain ⟨ihc, ihh⟩ := ih (col + 1) (by omega) (if spriteBit b col then d.pixel (wrapColumn cx col) y else d)
    have hsplit : ∀ c, ColumnHit cx b col (n + 1) c ↔
        (spriteBit b col = true ∧ wrapColumn cx col = c) ∨ ColumnHit cx b (col + 1) n c := by
      intro c
      constructor
      · rintro ⟨k, h1, h2, h3, h4⟩
        rcases Nat.eq_or_lt_of_le h1 with h | h
        · subst h; exact .inl ⟨h3, h4⟩
        · exact .inr ⟨k, h, by omega, h3, h4⟩
      · rintro (⟨h3, h4⟩ | ⟨k, h1, h2, h3, h4⟩)
        · exact ⟨col, le_refl _, by omega, h3, h4⟩
        · exact ⟨k, by omega, by omega, h3, h4⟩
    have hnot : ∀ c, wrapColumn cx col = c → ¬ColumnHit cx b (col + 1) n c := by
      rintro c rfl ⟨k, h1, h2, -, h4⟩
      have := wrapColumn_inj h4.symm (by omega) (by omega)
      omega
    simp only [drawColumns]
    by_cases hb : spriteBit b col = true
    · simp only [hb, if_true] at ihc ihh ⊢
      have hpix : ∀ c r, Display.cell (d.pixel (wrapColumn cx col) y).1 c r =
          (Display.cell d.1 c r ^^ (decide (c = wrapColumn cx col) && decide (r = y))) :=
        fun c r => Display.toggle_cell d.1 _ c y r
      refine ⟨fun c r => ⟨fun hcov => ?_, fun hncov => ?_⟩, ?_⟩
      · obtain ⟨rfl, hc⟩ := hcov
        rcases (hsplit c).1 hc with ⟨-, rfl⟩ | hc
        · rw [(ihc _ _).2 fun h => hnot _ rfl h.2, hpix]; simp
        · have hne : c ≠ wrapColumn cx col := fun e => hnot c e.symm hc
          rw [(ihc _ _).1 ⟨rfl, hc⟩, hpix]; simp [hne]
      · have h1 : ¬(r = y ∧ ColumnHit cx b (col + 1) n c) := fun h => hncov ⟨h.1, (hsplit c).2 (.inr h.2)⟩
        have h2 : ¬(c = wrapColumn cx col ∧ r = y) :=
          fun h => hncov ⟨h.2, (hsplit c).2 (.inl ⟨hb, h.1.symm⟩)⟩
        rw [(ihc _ _).2 h1, hpix]
        have : (decide (c = wrapColumn cx col) && decide (r = y)) = false := by simpa using h2
        simp [this]
      · rw [ihh]
        simp only [Drawing.pixel, Bool.or_eq_true]
        constructor
        · rintro ((h | h) | ⟨c, hc, h⟩)
          · exact .inl h
          · exact .inr ⟨_, (hsplit _).2 (.inl ⟨hb, rfl⟩), h⟩
          · have hne : c ≠ wrapColumn cx col := fun e => hnot c e.symm hc
            have : Display.cell (Display.toggle d.1 (wrapColumn cx col) y) c y = true := h
            rw [Display.toggle_cell] at this
            exact .inr ⟨c, (hsplit c).2 (.inr hc), by simpa [hne] using this⟩
        · rintro (h | ⟨c, hc, h⟩)
          · exact .inl (.inl h)
          · rcases (hsplit c).1 hc with ⟨-, rfl⟩ | hc'
            · exact .inl (.inr h)
            · have hne : c ≠ wrapColumn cx col := fun e => hnot c e.symm hc'
              refine .inr ⟨c, hc', ?_⟩
              show Display.cell (Display.toggle d.1 (wrapColumn cx col) y) c y = true
              rw [Display.toggle_cell]
              simpa [hne] using h
    · simp only [hb, if_false, Bool.false_eq_true] at ihc ihh ⊢
      have hsame : ∀ c, ColumnHit cx b col (n + 1) c ↔ ColumnHit cx b (col + 1) n c :=
        fun c => (hsplit c).trans (or_iff_right fun h => hb h.1)
      simp only [hsame]
      exact ⟨ihc, ihh⟩

/-! ## The whole sprite -/

/-- Some set bit of the sprite rows `bs`, the first of which is row `row`, falls on the cell (c, r). -/
def SpriteHit (cx cy : Byte) (row : Nat) (bs : List Byte) (c : Fin 64) (r : Fin 32) : Prop :=
  ∃ k, ∃ h : k < bs.length, wrapRow cy (row + k) = r ∧ ColumnHit cx bs[k] 0 8 c

/-- Everything a draw does (R172): the covered cells are toggled, the others kept, and `hit` is an on cell among the
covered ones. -/
theorem drawRows_spec (cx cy : Byte) (row : Nat) (bs : List Byte) (hlen : bs.length ≤ 32) (d : Drawing) :
    (∀ c r, (SpriteHit cx cy row bs c r → Display.cell (drawRows cx cy row bs d).1 c r = !Display.cell d.1 c r) ∧
      (¬SpriteHit cx cy row bs c r → Display.cell (drawRows cx cy row bs d).1 c r = Display.cell d.1 c r)) ∧
    ((drawRows cx cy row bs d).2 = true ↔
      d.2 = true ∨ ∃ c r, SpriteHit cx cy row bs c r ∧ Display.cell d.1 c r = true) := by
  induction bs generalizing row d with
  | nil =>
    have hno : ∀ c r, ¬SpriteHit cx cy row [] c r := fun c r ⟨k, h, _⟩ => absurd h (Nat.not_lt_zero k)
    simp [drawRows, hno]
  | cons b bs ih =>
    simp only [List.length_cons] at hlen
    obtain ⟨colc, colh⟩ := drawColumns_spec cx (wrapRow cy row) b 0 8 (by omega) d
    obtain ⟨ihc, ihh⟩ := ih (row + 1) (by omega) (drawColumns cx (wrapRow cy row) b 0 8 d)
    have hsplit : ∀ c r, SpriteHit cx cy row (b :: bs) c r ↔
        (r = wrapRow cy row ∧ ColumnHit cx b 0 8 c) ∨ SpriteHit cx cy (row + 1) bs c r := by
      intro c r
      constructor
      · rintro ⟨k, h, h1, h2⟩
        cases k with
        | zero => exact .inl ⟨h1.symm, h2⟩
        | succ k =>
          exact .inr ⟨k, by simpa using h, by rw [← h1]; congr 1; omega, by simpa using h2⟩
      · rintro (⟨h1, h2⟩ | ⟨k, h, h1, h2⟩)
        · exact ⟨0, by simp, h1.symm, h2⟩
        · exact ⟨k + 1, by simpa using h, by rw [← h1]; congr 1; omega, by simpa using h2⟩
    have hnot : ∀ c r, r = wrapRow cy row → ¬SpriteHit cx cy (row + 1) bs c r := by
      rintro c r rfl ⟨k, h, h1, -⟩
      have := wrapRow_inj h1.symm (by omega) (by omega)
      omega
    simp only [drawRows]
    refine ⟨fun c r => ⟨fun hcov => ?_, fun hncov => ?_⟩, ?_⟩
    · rcases (hsplit c r).1 hcov with h | h
      · rw [(ihc c r).2 (hnot c r h.1), (colc c r).1 h]
      · rw [(ihc c r).1 h, (colc c r).2 fun h' => hnot c r h'.1 h]
    · have h1 : ¬SpriteHit cx cy (row + 1) bs c r := fun h => hncov ((hsplit c r).2 (.inr h))
      rw [(ihc c r).2 h1, (colc c r).2 fun h => hncov ((hsplit c r).2 (.inl h))]
    · rw [ihh, colh]
      constructor
      · rintro ((h | ⟨c, hc, h⟩) | ⟨c, r, hc, h⟩)
        · exact .inl h
        · exact .inr ⟨c, _, (hsplit _ _).2 (.inl ⟨rfl, hc⟩), h⟩
        · rw [(colc c r).2 fun h' => hnot c r h'.1 hc] at h
          exact .inr ⟨c, r, (hsplit c r).2 (.inr hc), h⟩
      · rintro (h | ⟨c, r, hc, h⟩)
        · exact .inl (.inl h)
        · rcases (hsplit c r).1 hc with ⟨rfl, hc'⟩ | hc'
          · exact .inl (.inr ⟨c, hc', h⟩)
          · exact .inr ⟨c, r, hc', by rw [(colc c r).2 fun h' => hnot c r h'.1 hc']; exact h⟩

/-- The state after a draw: VF is the collision and the display is the drawing; nothing else changes. -/
theorem State.draw_eq (s : State) (x y : Idx) (bs : List Byte) : s.draw x y bs =
    { s with disp := (drawRows (s.getV x) (s.getV y) 0 bs (s.disp, false)).1,
             v := s.v.set vf (flagByte (drawRows (s.getV x) (s.getV y) 0 bs (s.disp, false)).2) } := rfl

end Sys2Proof.Machine
end

