-- ==== Sys2Proof/Laws/Step.lean ====
section
/-! SUPPORT. Said once: everything the fetch, each instruction that can fault, and a step can do. -/

namespace Sys2Proof.Machine

/-! ## Fetch and step -/

theorem State.fetch_of_word {s : State} {w : Word} (h : s.fetchWord = .ok w) :
    s.fetch = match decode w with
      | none => .fault ⟨.unimplemented, none⟩ (some w)
      | some i => .instr w i := by
  unfold State.fetch; simp only [h]; all_goals (cases decode w <;> rfl)

theorem State.fetch_of_error {s : State} {c : Cause} (h : s.fetchWord = .error c) : s.fetch = .fault c none := by
  unfold State.fetch; rw [h]

/-- A fetched instruction is the decoding of the word at pc, which lies in memory (R84, R85). -/
theorem State.fetch_eq_instr {s : State} {w : Word} {i : Instr} :
    s.fetch = .instr w i ↔ s.fetchWord = .ok w ∧ decode w = some i := by
  constructor
  · intro h
    cases hw : s.fetchWord with
    | error c => rw [s.fetch_of_error hw] at h; cases h
    | ok u =>
      rw [s.fetch_of_word hw] at h
      cases hd : decode u with
      | none => rw [hd] at h; cases h
      | some j => rw [hd] at h; cases h; exact ⟨rfl, hd⟩
  · rintro ⟨hw, hd⟩
    rw [s.fetch_of_word hw, hd]

/-- Where an instruction was fetched, pc and pc + 1 are in memory. -/
theorem State.pc_lt_of_fetch {s : State} {w : Word} {i : Instr} (h : s.fetch = .instr w i) :
    s.pc.toNat + 1 < 4096 := by
  have := (State.fetch_eq_instr.1 h).1
  rw [s.fetchWord_eq] at this
  split at this
  · assumption
  · cases this

/-- Everything the fetch can fault with (R84, R85, R204). -/
theorem State.fetch_eq_fault {s : State} {c : Cause} {o : Option Word} (h : s.fetch = .fault c o) :
    (4096 ≤ s.pc.toNat + 1 ∧ c = .memory (max s.pc.toNat 4096) ∧ o = none) ∨
    ∃ w, s.fetchWord = .ok w ∧ decode w = none ∧ c = ⟨.unimplemented, none⟩ ∧ o = some w := by
  cases hw : s.fetchWord with
  | error d =>
    rw [s.fetch_of_error hw] at h
    cases h
    rw [s.fetchWord_eq] at hw
    split at hw
    · cases hw
    · cases hw; exact .inl ⟨by omega, rfl, rfl⟩
  | ok w =>
    rw [s.fetch_of_word hw] at h
    cases hd : decode w with
    | none => rw [hd] at h; cases h; exact .inr ⟨w, rfl, hd, rfl, rfl⟩
    | some j => rw [hd] at h; cases h

theorem step_of_faulted {s : State} {info : FaultInfo} (h : s.status = .faulted info) :
    step s = .fault (.halted info) := by
  unfold step; rw [h]

theorem step_of_fetch_fault {s : State} {c : Cause} {o : Option Word} (h : s.status = .running)
    (hf : s.fetch = .fault c o) : step s = .next (s.enterFault c o) := by
  unfold step; rw [h, hf]

theorem step_of_fetch_instr {s : State} {w : Word} {i : Instr} (h : s.status = .running)
    (hf : s.fetch = .instr w i) : step s = exec i s := by
  unfold step; rw [h, hf]

/-- Everything a step that answers a next state can do (R90): it ran, and it entered a fault of the fetch or the decoder,
or executed the instruction at pc. -/
theorem step_cases {s t : State} (h : step s = .next t) :
    s.status = .running ∧
      ((∃ c o, s.fetch = .fault c o ∧ t = s.enterFault c o) ∨ ∃ w i, s.fetch = .instr w i ∧ exec i s = .next t) := by
  cases hs : s.status with
  | faulted info => rw [step_of_faulted hs] at h; cases h
  | running =>
    refine ⟨rfl, ?_⟩
    cases hf : s.fetch with
    | fault c o =>
      rw [step_of_fetch_fault hs hf] at h
      exact .inl ⟨c, o, rfl, (Host.Outcome.next.inj h).symm⟩
    | instr w i =>
      rw [step_of_fetch_instr hs hf] at h
      exact .inr ⟨w, i, rfl, h⟩

/-! ## The instructions that can fault -/

theorem execRet_eq (s : State) : execRet s =
    if _h : s.sp.val = 0 then .next (s.enterFault ⟨.stackUnderflow, none⟩ (some 0x00EE))
    else .next { s with sp := ⟨s.sp.val - 1, by omega⟩, pc := s.stack[s.sp.val - 1]'(by omega) } := by
  unfold execRet
  by_cases h : s.sp.val = 0
  · rw [dif_pos h, show s.advance.popPc = .error ⟨.stackUnderflow, none⟩ from dif_pos h]; rfl
  · rw [dif_neg h, show s.advance.popPc = .ok _ from dif_neg h]; rfl

theorem execCall_eq (nnn : BitVec 12) (s : State) : execCall nnn s =
    if h : s.sp.val < 16 then
      .next { s with stack := s.stack.set s.sp.val (s.pc + 2), sp := ⟨s.sp.val + 1, by omega⟩, pc := zextNnn nnn }
    else .next (s.enterFault ⟨.stackOverflow, none⟩ (some (encode (.call nnn)))) := by
  unfold execCall
  by_cases h : s.sp.val < 16
  · rw [dif_pos h, show s.advance.pushPc = .ok _ from dif_pos h]; rfl
  · rw [dif_neg h, show s.advance.pushPc = .error ⟨.stackOverflow, none⟩ from dif_neg h]; rfl

theorem execLdB_eq (x : Idx) (s : State) : execLdB x s =
    if s.i.toNat + 3 ≤ 4096 then
      .next { s.advance with mem := Memory.writeMany s.fontRom s.mem s.i.toNat (bcdDigits (s.getV x)) }
    else .next (s.enterFault (.memory (max s.i.toNat 4096)) (some (encode (.ldB x)))) := by
  unfold execLdB
  rw [State.memWriteMany_eq]
  have : (bcdDigits (s.getV x) = [] ∨ s.transferAddr 0 + (bcdDigits (s.getV x)).length ≤ 4096) ↔
      s.i.toNat + 3 ≤ 4096 := by simp [bcdDigits, State.transferAddr]
  simp only [this]
  split <;> rfl

theorem execStoreRegs_eq (x : Idx) (s : State) : execStoreRegs x s =
    if s.i.toNat + (x.val + 1) ≤ 4096 then
      .next { s.advance with mem := Memory.writeMany s.fontRom s.mem s.i.toNat (s.getVPrefix x) }
    else .next (s.enterFault (.memory (max s.i.toNat 4096)) (some (encode (.storeRegs x)))) := by
  unfold execStoreRegs
  rw [State.memWriteMany_eq]
  have : (s.getVPrefix x = [] ∨ s.transferAddr 0 + (s.getVPrefix x).length ≤ 4096) ↔
      s.i.toNat + (x.val + 1) ≤ 4096 := by
    rw [← List.length_eq_zero_iff]; simp
  simp only [this]
  split <;> rfl

theorem execLoadRegs_eq (x : Idx) (s : State) : execLoadRegs x s =
    if s.i.toNat + (x.val + 1) ≤ 4096 then
      .next (s.advance.setVPrefix ((List.range (x.val + 1)).map fun k => s.byteAt (s.i.toNat + k)))
    else .next (s.enterFault (.memory (max s.i.toNat 4096)) (some (encode (.loadRegs x)))) := by
  unfold execLoadRegs
  rw [State.memReadMany_eq]
  have : (x.val + 1 = 0 ∨ s.transferAddr 0 + (x.val + 1) ≤ 4096) ↔ s.i.toNat + (x.val + 1) ≤ 4096 := by simp
  simp only [this]
  split <;> rfl

theorem execDrw_eq (x y n : Idx) (s : State) : execDrw x y n s =
    if n.val = 0 ∨ s.i.toNat + n.val ≤ 4096 then
      .next (s.advance.draw x y ((List.range n.val).map fun k => s.byteAt (s.i.toNat + k)))
    else .next (s.enterFault (.memory (max s.i.toNat 4096)) (some (encode (.drw x y n)))) := by
  unfold execDrw
  by_cases h : n.val = 0 ∨ s.i.toNat + n.val ≤ 4096
  · rw [if_pos h, (s.memReadMany_eq (s.transferAddr 0) n.val).trans (if_pos h)]; rfl
  · rw [if_neg h, (s.memReadMany_eq (s.transferAddr 0) n.val).trans (if_neg h)]; rfl

theorem execSkp_eq (x : Idx) (s : State) : execSkp x s =
    if h : (s.getV x).toNat < 16 then .next (s.advance.skipIf s.keys[(s.getV x).toNat])
    else .next (s.enterFault (.key (s.getV x).toNat) (some (encode (.skp x)))) := by
  unfold execSkp
  by_cases h : (s.getV x).toNat < 16
  · rw [dif_pos h, s.keyState_ok h]; rfl
  · rw [dif_neg h, s.keyState_error (by omega)]; rfl

theorem execSknp_eq (x : Idx) (s : State) : execSknp x s =
    if h : (s.getV x).toNat < 16 then .next (s.advance.skipIf (!s.keys[(s.getV x).toNat]))
    else .next (s.enterFault (.key (s.getV x).toNat) (some (encode (.sknp x)))) := by
  unfold execSknp
  by_cases h : (s.getV x).toNat < 16
  · rw [dif_pos h, s.keyState_ok h]; rfl
  · rw [dif_neg h, s.keyState_error (by omega)]; rfl

/-- Everything an instruction that answers a next state can do: its fault entry, or its own effect. -/
theorem exec_cases {i : Instr} {s t : State} (h : exec i s = .next t) :
    (∃ c, t = s.enterFault c (some (encode i))) ∨
    match i with
    | .ret => ∃ _ : 0 < s.sp.val, t =
        { s with sp := ⟨s.sp.val - 1, by omega⟩, pc := s.stack[s.sp.val - 1]'(by omega) }
    | .call nnn => ∃ _ : s.sp.val < 16, t =
        { s with stack := s.stack.set s.sp.val (s.pc + 2), sp := ⟨s.sp.val + 1, by omega⟩, pc := zextNnn nnn }
    | .skp _ | .sknp _ | .seImm _ _ | .sneImm _ _ | .seReg _ _ | .sneReg _ _ => ∃ b, t = s.advance.skipIf b
    | .jp nnn => t = s.advance.jumpTo (zextNnn nnn)
    | .jpV0 nnn => t = s.advance.jumpTo (zextNnn nnn + zextByte (s.getV 0))
    | .nop => t = s.advance
    | .cls => t = { s.advance with disp := Display.off }
    | .drw x y n => (n.val = 0 ∨ s.i.toNat + n.val ≤ 4096) ∧
        t = s.advance.draw x y ((List.range n.val).map fun k => s.byteAt (s.i.toNat + k))
    | .ldB x => s.i.toNat + 3 ≤ 4096 ∧ t =
        { s.advance with mem := Memory.writeMany s.fontRom s.mem s.i.toNat (bcdDigits (s.getV x)) }
    | .storeRegs x => s.i.toNat + (x.val + 1) ≤ 4096 ∧ t =
        { s.advance with mem := Memory.writeMany s.fontRom s.mem s.i.toNat (s.getVPrefix x) }
    | .loadRegs x => s.i.toNat + (x.val + 1) ≤ 4096 ∧
        t = s.advance.setVPrefix ((List.range (x.val + 1)).map fun k => s.byteAt (s.i.toNat + k))
    | .ldVxK x => (∃ k, t = s.advance.setV x k) ∨ (t = s ∧ ∀ k : Idx, s.keys[k] = false)
    | .ldImm x _ | .addImm x _ | .ldReg x _ | .orReg x _ | .andReg x _ | .xorReg x _ | .ldVxDt x =>
      ∃ b, t = s.advance.setV x b
    | .addReg x _ | .subReg x _ | .shr x | .subnReg x _ | .shl x => ∃ b c, t = s.advance.setResultAndFlag x b c
    | .rnd x kk => ∃ b, t = s.random b x kk
    | .ldDtVx x => t = { s.advance with dt := s.getV x }
    | .ldStVx x => t = { s.advance with st := s.getV x }
    | .ldI _ | .addI _ | .ldF _ => ∃ w, t = s.advance.setI w := by
  cases i with
  | ret =>
    rw [show exec .ret s = execRet s from rfl, execRet_eq] at h
    split at h <;> cases h
    · exact .inl ⟨_, rfl⟩
    · exact .inr ⟨by omega, rfl⟩
  | call nnn =>
    rw [show exec (.call nnn) s = execCall nnn s from rfl, execCall_eq] at h
    split at h <;> cases h
    · exact .inr ⟨by assumption, rfl⟩
    · exact .inl ⟨_, rfl⟩
  | skp x =>
    rw [show exec (.skp x) s = execSkp x s from rfl, execSkp_eq] at h
    split at h <;> cases h
    · exact .inr ⟨_, rfl⟩
    · exact .inl ⟨_, rfl⟩
  | sknp x =>
    rw [show exec (.sknp x) s = execSknp x s from rfl, execSknp_eq] at h
    split at h <;> cases h
    · exact .inr ⟨_, rfl⟩
    · exact .inl ⟨_, rfl⟩
  | drw x y n =>
    rw [show exec (.drw x y n) s = execDrw x y n s from rfl, execDrw_eq] at h
    split at h <;> cases h
    · exact .inr ⟨by assumption, rfl⟩
    · exact .inl ⟨_, rfl⟩
  | ldB x =>
    rw [show exec (.ldB x) s = execLdB x s from rfl, execLdB_eq] at h
    split at h <;> cases h
    · exact .inr ⟨by assumption, rfl⟩
    · exact .inl ⟨_, rfl⟩
  | storeRegs x =>
    rw [show exec (.storeRegs x) s = execStoreRegs x s from rfl, execStoreRegs_eq] at h
    split at h <;> cases h
    · exact .inr ⟨by assumption, rfl⟩
    · exact .inl ⟨_, rfl⟩
  | loadRegs x =>
    rw [show exec (.loadRegs x) s = execLoadRegs x s from rfl, execLoadRegs_eq] at h
    split at h <;> cases h
    · exact .inr ⟨by assumption, rfl⟩
    · exact .inl ⟨_, rfl⟩
  | ldVxK x =>
    refine .inr ?_
    simp only [exec, execLdVxK] at h
    cases hk : s.lowestPressed with
    | none =>
      rw [hk] at h; cases h
      refine .inr ⟨?_, s.lowestPressed_eq_none.1 hk⟩
      show { s with pc := s.pc + 2 - 2 } = s
      rw [BitVec.add_sub_cancel]
    | some k => rw [hk] at h; cases h; exact .inl ⟨_, rfl⟩
  | nop | cls | jp | jpV0 | ldDtVx | ldStVx => cases h; exact .inr rfl
  | seImm | sneImm | seReg | sneReg | ldI | addI | ldF | ldImm | addImm | ldReg | orReg | andReg | xorReg | ldVxDt |
    rnd => cases h; exact .inr ⟨_, rfl⟩
  | addReg | subReg | shr | subnReg | shl => cases h; exact .inr ⟨_, _, rfl⟩

end Sys2Proof.Machine
end

