-- ==== Sys2Proof/Tests/Slice0.lean ====
section
/-! SUPPORT. Tests. The expected results are the vectors of `95_test_vectors.md` (L2: F, A, M, D, K, X, H) and words written
out from the bit diagrams of R81 and the rows of R86. Then the witnesses: concrete states that meet the hypotheses of the
obligations. -/

namespace Sys2Proof.Tests

open Sys2Proof Sys2Proof.Machine

/-! ## Helpers -/

/-- The state after one step on the word `w` at pc, if the step answers a next state. -/
def ran (w : Nat) (s : State) : Option State :=
  match step (s.withFetchWord 16 w) with
  | .next t => some t
  | _ => none

/-- The state of an outcome. -/
def nextOf : Host.Outcome State Fault Refusal → State
  | .next t => t
  | _ => State.reset

def isNext : Host.Outcome State Fault Refusal → Bool
  | .next _ => true
  | _ => false

theorem eq_next {o : Host.Outcome State Fault Refusal} (h : isNext o = true) : o = .next (nextOf o) := by
  cases o with
  | next t => rfl
  | fault f => cases h
  | refused r => cases h

/-- Reset with some V registers set. -/
def withV (vs : List (Idx × Byte)) : State := vs.foldl (fun s p => s.setV p.1 p.2) State.reset

/-- Reset with some bytes stored from `base` on. -/
def withMem (s : State) (base : Nat) (bs : List Byte) : State :=
  { s with mem := Memory.writeMany s.fontRom s.mem base bs }

def fault (k : FaultKind) (pc : Word) (w : Option Word) (loc : Option (Space × Nat)) : Status :=
  .faulted ⟨k, some pc, w, loc⟩

/-! ## What is legal (WellFormed.lean): each check refuses an ill-formed term -/

theorem test_legalWord_refuses : legalWord 0x0123 = false ∧ legalWord 0x5121 = false ∧ legalWord 0x8128 = false ∧
    legalWord 0xE09F = false ∧ legalWord 0xF000 = false := by decide

theorem test_legalWord_accepts : legalWord 0x0000 = true ∧ legalWord 0x812E = true ∧ legalWord 0xDFFF = true := by
  decide

theorem test_matchesWord_refuses : (OpcodeRow.mk "CLS" 0xFFFF 0x00E0).matchesWord 0x01E0 = false := by decide

theorem test_imageFits_refuses : imageFits (List.replicate 3585 0) = false := by
  rw [imageFits, List.length_replicate]; decide

theorem test_imageFits_accepts : imageFits (List.replicate 3584 0) = true := by
  rw [imageFits, List.length_replicate]; decide

/-! ## Decoding: words written out from R81 and R86, one for every constructor -/

theorem test_decode_family0 : decode 0x0000 = some .nop ∧ decode 0x00E0 = some .cls ∧ decode 0x00EE = some .ret ∧
    decode 0x01E0 = none := by decide

theorem test_decode_flow : decode 0x1234 = some (.jp 0x234) ∧ decode 0x2ABC = some (.call 0xABC) ∧
    decode 0x3342 = some (.seImm 3 0x42) ∧ decode 0x43F0 = some (.sneImm 3 0xF0) ∧
    decode 0x5120 = some (.seReg 1 2) ∧ decode 0x9AB0 = some (.sneReg 10 11) ∧ decode 0xBFFE = some (.jpV0 0xFFE) := by
  decide

theorem test_decode_loads : decode 0x6A2F = some (.ldImm 10 0x2F) ∧ decode 0x7F01 = some (.addImm 15 1) ∧
    decode 0xC30F = some (.rnd 3 0x0F) := by decide

theorem test_decode_family8 : decode 0x8120 = some (.ldReg 1 2) ∧ decode 0x8121 = some (.orReg 1 2) ∧
    decode 0x8122 = some (.andReg 1 2) ∧ decode 0x8123 = some (.xorReg 1 2) ∧ decode 0x8124 = some (.addReg 1 2) ∧
    decode 0x8125 = some (.subReg 1 2) ∧ decode 0x8126 = some (.shr 1) ∧ decode 0x8127 = some (.subnReg 1 2) ∧
    decode 0x812E = some (.shl 1) ∧ decode 0x812F = none := by decide

theorem test_decode_index : decode 0xA200 = some (.ldI 0x200) ∧ decode 0xF21E = some (.addI 2) ∧
    decode 0xF029 = some (.ldF 0) ∧ decode 0xF133 = some (.ldB 1) ∧ decode 0xF255 = some (.storeRegs 2) ∧
    decode 0xFF65 = some (.loadRegs 15) := by decide

theorem test_decode_display_keys_timers : decode 0xD12F = some (.drw 1 2 15) ∧ decode 0xE29E = some (.skp 2) ∧
    decode 0xE2A1 = some (.sknp 2) ∧ decode 0xF507 = some (.ldVxDt 5) ∧ decode 0xF30A = some (.ldVxK 3) ∧
    decode 0xF515 = some (.ldDtVx 5) ∧ decode 0xF518 = some (.ldStVx 5) := by decide

theorem test_decode_bytes : decodeBytes [0x8A, 0xB4, 0x12] = .ok (.addReg 10 11, [0x12]) ∧
    decodeBytes [0x80] = .error .truncated ∧ decodeBytes [0x80, 0x08] = .error (.unimplemented 0x8008) := by
  exact ⟨rfl, rfl, rfl⟩

theorem test_encode : encode (.drw 1 2 15) = 0xD12F ∧ encode (.shl 4) = 0x840E ∧ encode (.jpV0 0xABC) = 0xBABC ∧
    encode (.storeRegs 2) = 0xF255 ∧ decodeTableWord 16 0xF133 = some (.ldB 1) := by decide

/-! ## Control flow: vectors F -/

theorem test_nop : (ran 0x0000 State.reset).map (·.pc) = some 0x202 := by decide

theorem test_ret : (ran 0x00EE { State.reset with pc := 0x300, sp := 1, stack := State.reset.stack.set 0 0x204 }).map
    (fun t => (t.pc, t.sp)) = some (0x204, 0) := by decide

theorem test_ret_underflow : (ran 0x00EE { State.reset with pc := 0x300 }).map (fun t => (t.pc, t.status)) =
    some (0x300, fault .stackUnderflow 0x300 (some 0x00EE) none) := by decide

theorem test_jp : (ran 0x1234 State.reset).map (·.pc) = some 0x234 := by decide

theorem test_call : (ran 0x2ABC { State.reset with pc := 0xFFE }).map (fun t => (t.pc, t.sp, t.stack[0])) =
    some (0xABC, 1, 0x1000) := by decide

theorem test_call_overflow : (ran 0x2300 { State.reset with sp := 16 }).map (fun t => (t.pc, t.sp, t.status)) =
    some (0x200, 16, fault .stackOverflow 0x200 (some 0x2300) none) := by decide

theorem test_seImm : (ran 0x3342 (withV [(3, 0x42)])).map (·.pc) = some 0x204 ∧
    (ran 0x3342 (withV [(3, 0x41)])).map (·.pc) = some 0x202 := by decide

theorem test_sneImm : (ran 0x4342 (withV [(3, 0x42)])).map (·.pc) = some 0x202 ∧
    (ran 0x4300 (withV [(3, 0x42)])).map (·.pc) = some 0x204 := by decide

theorem test_seReg : (ran 0x5120 (withV [(1, 7), (2, 7)])).map (·.pc) = some 0x204 ∧
    (ran 0x5120 (withV [(1, 7), (2, 8)])).map (·.pc) = some 0x202 := by decide

theorem test_sneReg : (ran 0x9120 (withV [(1, 7), (2, 8)])).map (·.pc) = some 0x204 ∧
    (ran 0x9550 State.reset).map (·.pc) = some 0x202 := by decide

theorem test_jpV0 : (ran 0xBFFF (withV [(0, 0xFF)])).map (·.pc) = some 0x10FE ∧
    (ran 0xB201 (withV [(2, 9)])).map (·.pc) = some 0x201 := by decide

/-! ## ALU: vectors A -/

theorem test_ldImm : (ran 0x6AFF State.reset).map (·.getV 10) = some 0xFF := by decide

theorem test_addImm_no_flag : (ran 0x7A07 (withV [(10, 0xFE), (15, 9)])).map (fun t => (t.getV 10, t.getV 15)) =
    some (5, 9) := by decide

theorem test_addImm_vf : (ran 0x7F01 (withV [(15, 0xFF)])).map (·.getV 15) = some 0 := by decide

theorem test_ldReg : (ran 0x8120 (withV [(2, 0x55)])).map (·.getV 1) = some 0x55 := by decide

theorem test_orReg : (ran 0x8121 (withV [(1, 0xF0), (2, 0x0F), (15, 1)])).map (fun t => (t.getV 1, t.getV 15)) =
    some (0xFF, 1) ∧ (ran 0x8F01 (withV [(15, 1), (0, 2)])).map (·.getV 15) = some 3 := by decide

theorem test_andReg : (ran 0x8122 (withV [(1, 0xF0), (2, 0x3C)])).map (·.getV 1) = some 0x30 := by decide

theorem test_xorReg : (ran 0x8123 (withV [(1, 0xFF), (2, 0x0F)])).map (·.getV 1) = some 0xF0 := by decide

theorem test_addReg : (ran 0x8124 (withV [(1, 0xFF), (2, 1)])).map (fun t => (t.getV 1, t.getV 15)) = some (0, 1) ∧
    (ran 0x8124 (withV [(1, 0x7F), (2, 1), (15, 1)])).map (fun t => (t.getV 1, t.getV 15)) = some (0x80, 0) := by
  decide

theorem test_addReg_vf : (ran 0x8F24 (withV [(15, 0xFF), (2, 1)])).map (·.getV 15) = some 1 := by decide

theorem test_subReg : (ran 0x8125 (withV [(1, 4), (2, 5)])).map (fun t => (t.getV 1, t.getV 15)) = some (0xFF, 0) ∧
    (ran 0x8125 (withV [(1, 5), (2, 5)])).map (fun t => (t.getV 1, t.getV 15)) = some (0, 1) := by decide

theorem test_subReg_vf : (ran 0x8F25 (withV [(15, 0x10), (2, 0x20)])).map (·.getV 15) = some 0 := by decide

theorem test_shr : (ran 0x8126 (withV [(1, 0x80), (2, 0xFF)])).map (fun t => (t.getV 1, t.getV 2, t.getV 15)) =
    some (0x40, 0xFF, 0) := by decide

theorem test_shr_vf : (ran 0x8F06 (withV [(15, 3)])).map (·.getV 15) = some 1 := by decide

theorem test_subnReg : (ran 0x8127 (withV [(1, 5), (2, 3)])).map (fun t => (t.getV 1, t.getV 15)) = some (0xFE, 0) ∧
    (ran 0x8F07 (withV [(15, 1), (0, 2)])).map (·.getV 15) = some 1 := by decide

theorem test_shl : (ran 0x812E (withV [(1, 0x81)])).map (fun t => (t.getV 1, t.getV 15)) = some (2, 1) ∧
    (ran 0x8F0E (withV [(15, 0x80)])).map (·.getV 15) = some 1 := by decide

/-- A26: the random byte given is AB. -/
theorem test_rnd : (nextOf (stepWith 0xAB (State.reset.withFetchWord 16 0xC30F))).getV 3 = 0x0B := by decide

/-! ## Address register and memory: vectors M -/

theorem test_ldI : (ran 0xAFFF State.reset).map (·.i) = some 0xFFF := by decide

theorem test_addI : (ran 0xF21E { withV [(2, 2)] with i := 0xFFFF }).map (·.i) = some 1 ∧
    (ran 0xF21E { withV [(2, 1), (15, 7)] with i := 0x0FFF }).map (fun t => (t.i, t.getV 15)) = some (0x1000, 7) := by
  decide

theorem test_ldF : (ran 0xF229 (withV [(2, 15)])).map (·.i) = some 0x4B ∧
    (ran 0xF229 (withV [(2, 0xFF)])).map (·.i) = some 0x4FB := by decide

theorem test_ldB : (ran 0xF333 { withV [(3, 107)] with i := 0xFFD }).map
    (fun t => (t.byteAt 0xFFD, t.byteAt 0xFFE, t.byteAt 0xFFF)) = some (1, 0, 7) := by decide

theorem test_ldB_fault : (ran 0xF333 { withV [(3, 1)] with i := 0xFFE }).map
    (fun t => (t.byteAt 0xFFE, t.status)) =
    some (0, fault .outOfBounds 0x200 (some 0xF333) (some (.mem, 0x1000))) := by decide

theorem test_storeRegs : (ran 0xF255 { withV [(0, 1), (1, 2), (2, 3), (3, 9)] with i := 0x300 }).map
    (fun t => (t.byteAt 0x300, t.byteAt 0x301, t.byteAt 0x302, t.byteAt 0x303, t.i)) = some (1, 2, 3, 0, 0x300) := by
  decide

theorem test_storeRegs_fault : (ran 0xF155 { withV [(0, 1), (1, 2)] with i := 0xFFF }).map
    (fun t => (t.byteAt 0xFFF, t.pc, t.status)) =
    some (0, 0x200, fault .outOfBounds 0x200 (some 0xF155) (some (.mem, 0x1000))) := by decide

theorem test_loadRegs : (ran 0xF265 (withMem { withV [(3, 5)] with i := 0x300 } 0x300 [9, 8, 7, 6])).map
    (fun t => (t.getV 0, t.getV 1, t.getV 2, t.getV 3)) = some (9, 8, 7, 5) := by decide

theorem test_loadRegs_fault : (ran 0xF065 { State.reset with i := 0x1000 }).map (·.status) =
    some (fault .outOfBounds 0x200 (some 0xF065) (some (.mem, 0x1000))) := by decide

/-- M17: the font region is writable; the byte listed is the one that differs from the reset contents. -/
theorem test_font_region_is_written : (ran 0xF055 { State.reset with i := 0x10 }).map (·.byteAt 0x10) = some 0 := by
  decide

/-! ## Display: vectors D -/

def lit (cells : List (Fin 64 × Fin 32)) (s : State) : State :=
  { s with disp := cells.foldl (fun d c => Display.toggle d c.1 c.2) s.disp }

theorem test_cls : (ran 0x00E0 (lit [(0, 0), (63, 31)] (withV [(15, 4)]))).map
    (fun t => (t.cell 0 0, t.cell 63 31, t.getV 15)) = some (false, false, 4) := by decide

theorem test_drw_wraps_and_collides : (ran 0xD011 (lit [(0, 31)] (withMem
    { withV [(0, 63), (1, 31)] with i := 0x300 } 0x300 [0xC0]))).map
    (fun t => (t.cell 63 31, t.cell 0 31, t.getV 15)) = some (true, false, 1) := by decide

theorem test_drw_fault : (ran 0xD012 (withMem { withV [(15, 9)] with i := 0xFFF } 0xFFF [0x80])).map
    (fun t => (t.cell 0 0, t.getV 15, t.status)) =
    some (false, 9, fault .outOfBounds 0x200 (some 0xD012) (some (.mem, 0x1000))) := by decide

/-! ## Keys and timers: vectors K -/

theorem test_skp : (ran 0xE29E ((withV [(2, 10)]).setKey 10 true)).map (·.pc) = some 0x204 ∧
    (ran 0xE29E (withV [(2, 16)])).map (·.status) =
      some (fault .outOfBounds 0x200 (some 0xE29E) (some (.keys, 16))) := by decide

theorem test_sknp : (ran 0xE2A1 (withV [(2, 10)])).map (·.pc) = some 0x204 ∧
    (ran 0xE2A1 (withV [(2, 0xFF)])).map (·.status) =
      some (fault .outOfBounds 0x200 (some 0xE2A1) (some (.keys, 0xFF))) := by decide

theorem test_ldVxK : (ran 0xF30A (({ State.reset with pc := 0x300 }.setKey 7 true).setKey 2 true)).map
    (fun t => (t.getV 3, t.pc)) = some (2, 0x302) ∧
    (ran 0xF30A { State.reset with pc := 0x300 }).map (·.pc) = some 0x300 := by decide

theorem test_ldVxDt : (ran 0xF507 { State.reset with dt := 0x3C }).map (fun t => (t.getV 5, t.dt)) =
    some (0x3C, 0x3C) := by decide

theorem test_ldDtVx : (ran 0xF515 (withV [(5, 0x3C)])).map (fun t => (t.dt, t.st)) = some (0x3C, 0) := by decide

theorem test_ldStVx : (ran 0xF518 (withV [(5, 1)])).map (fun t => (t.dt, t.st)) = some (0, 1) := by decide

/-! ## Fetch and decode faults: vectors X -/

theorem test_unimplemented : (ran 0x5121 State.reset).map (fun t => (t.pc, t.status)) =
    some (0x200, fault .unimplemented 0x200 (some 0x5121) none) := by decide

theorem test_fetch_faults : (nextOf (step { State.reset with pc := 0xFFF })).status =
      fault .outOfBounds 0xFFF none (some (.mem, 0x1000)) ∧
    (nextOf (step { State.reset with pc := 0x10FE })).status =
      fault .outOfBounds 0x10FE none (some (.mem, 0x10FE)) := by decide

/-! ## Host operations: vectors H -/

theorem test_decayTimers : (transact .decayTimers { State.reset with dt := 5, st := 1 }).2 = .beep true ∧
    (transact .decayTimers { State.reset with dt := 5, st := 1 }).1.dt = 4 ∧
    (transact .decayTimers State.reset).1.dt = 0 ∧ (transact .decayTimers State.reset).2 = .beep false := by decide

theorem test_setKey : (transact (.setKey 3 true) State.reset).1.keys[3] = true := by decide

theorem test_load : (transact (.load [0x12, 0x00]) { withV [(1, 5)] with pc := 0x300 }).1.byteAt 0x200 = 0x12 ∧
    (transact (.load [0x12, 0x00]) { withV [(1, 5)] with pc := 0x300 }).1.pc = 0x200 ∧
    (transact (.load [0x12, 0x00]) (withV [(1, 5)])).1.getV 1 = 5 := by decide

theorem test_step_while_faulted : (transact (.step 0)
    { State.reset with status := fault .unimplemented 0x200 (some 0xFFFF) none }).2 = .fault ⟨.unimplemented, some 0x200, some 0xFFFF, none⟩ := by decide

/-! ## Memory keeps its canonical form: a byte written back to its reset value is no longer listed -/

theorem test_write_back_unlists :
    Memory.write defaultFont (Memory.write defaultFont [] 0x300 7) 0x300 0 = ([] : Memory) ∧
    Memory.write defaultFont [] 0 0xF0 = ([] : Memory) := by decide

/-! ## Witnesses: the hypotheses of each obligation are met by concrete states -/

/-- The state of a program whose word `w` is at pc, with every V register at its reset value. -/
def at200 (w : Nat) : State := State.reset.withFetchWord 16 w

theorem witness_ResetGivesTheTable : (HostOp.init = .init ∨ HostOp.init = .reset) ∧
    (HostOp.reset = .init ∨ HostOp.reset = .reset) := by decide

/-- Every clause `Encodes mask pattern f` is about some word: the pattern of each row of R86 meets its mask. -/
theorem witness_Encodes : ∀ r ∈ opcodeMap, r.pattern &&& r.mask = r.pattern := by decide

theorem witness_ShiftsReportTheBitShiftedOut : (0 : Idx) ≠ 15 ∧ (14 : Idx) ≠ 15 := by decide

theorem witness_SetKeyAndReadDisplay : (14 : Idx) ≠ 15 := by decide

/-- Both ends of the zeroed range and of the font. -/
theorem witness_ResetGivesTheTable_ranges : (80 ≤ 80 ∧ 80 < 4096) ∧ (80 ≤ 4095 ∧ 4095 < 4096) := by decide

theorem witness_MemoryPrimitives : (4095 < 4096) ∧ (4096 ≤ 4096) ∧ State.reset.memRead 4095 = .ok 0 ∧
    State.reset.memRead 4096 = .error (.memory 4096) := ⟨by decide, by decide, rfl, rfl⟩

theorem witness_CanonicalMemoriesThatReadAlikeAreEqual :
    Memory.wf defaultFont (Memory.write defaultFont [] 0xFFF 7) = true ∧
    ∀ a, Memory.read defaultFont (Memory.write defaultFont [] 0xFFF 7) a =
      Memory.read defaultFont (Memory.write defaultFont [] 0xFFF 7) a := ⟨by decide, fun _ => rfl⟩

/-- I = pc + 2 and x = 15 at the top of memory, and LD [I], V1 with the code 00E0 in V0, V1. -/
theorem witness_StoredCodeIsFetchedNext :
    ∃ (s : State) (x : Idx), s.i.toNat = s.pc.toNat + 2 ∧ 1 ≤ x.val ∧ s.i.toNat + x.val < 4096 ∧ s.status = .running ∧
      decode (wordOfBytes (s.getV 0) (s.getV 1)) = some .cls :=
  ⟨{ withV [(1, 0xE0)] with pc := 0xFEE, i := 0xFF0 }, 15, by decide, by decide, by decide, rfl, by decide⟩

theorem witness_OnlyTheShiftsIgnoreAField : decode 0x81F6 = some (.shr 1) ∧ encode (.shr 1) = 0x81F6 &&& 0xFF0F := by
  decide

theorem witness_StepRunsTheDecodedInstruction : ∃ (s : State) (i : Instr) (rest : List Byte), s.status = .running ∧
    s.pc.toNat + 1 < 4096 ∧ decodeBytes (s.byteAt s.pc.toNat :: s.byteAt (s.pc.toNat + 1) :: rest) = .ok (i, rest) :=
  ⟨{ State.reset with pc := 0xFFE }, .nop, [], rfl, by decide, rfl⟩

theorem witness_FetchOutsideMemoryFaults : ({ State.reset with pc := 0xFFF } : State).status = .running ∧
    4095 ≤ ({ State.reset with pc := 0xFFF } : State).pc.toNat ∧
    4095 ≤ ({ State.reset with pc := 0x1000 } : State).pc.toNat := by decide

theorem witness_IllegalWordIsUnimplemented : (at200 0x8128).status = .running ∧
    (at200 0x8128).fetchWord = .ok 0x8128 ∧ legalWord 0x8128 = false ∧ legalWord 0x8126 = true :=
  ⟨rfl, rfl, by decide, by decide⟩

/-- One entry in use and sixteen; none in use. -/
theorem witness_RetPopsOrUnderflows : (({ State.reset with sp := 1 } : State).sp.val = (0 : Idx).val + 1) ∧
    (({ State.reset with sp := 16 } : State).sp.val = (15 : Idx).val + 1) ∧ State.reset.sp.val = 0 := by decide

/-- No entry in use and fifteen; sixteen in use. -/
theorem witness_CallPushesOrOverflows : (State.reset.sp.val = (0 : Idx).val) ∧
    (({ State.reset with sp := 15 } : State).sp.val = (15 : Idx).val) ∧
    ({ State.reset with sp := 16 } : State).sp.val = 16 := by decide

theorem witness_SkipsOnAnImmediate : State.reset.getV 3 = 0 ∧ State.reset.getV 3 ≠ 1 := by decide

theorem witness_SkipsOnTwoRegisters : (withV [(1, 7)]).getV 2 = (withV [(1, 7)]).getV 3 ∧
    (withV [(1, 7)]).getV 1 ≠ (withV [(1, 7)]).getV 2 := by decide

theorem witness_RetReturnsToAfterTheCall : ∃ (s t u : State) (nnn : BitVec 12), s.sp.val < 16 ∧
    exec (.call nnn) s = .next t ∧ u.stack = t.stack ∧ u.sp = t.sp :=
  ⟨{ State.reset with sp := 15 }, _, _, 0x300, by decide,
    eq_next (o := exec (.call 0x300) { State.reset with sp := 15 }) (by decide), rfl, rfl⟩

/-- The carry clauses meet at 255 and 256. -/
theorem witness_AddWithCarry : (1 : Idx) ≠ 15 ∧
    256 ≤ ((withV [(1, 0xFF), (2, 1)]).getV 1).toNat + ((withV [(1, 0xFF), (2, 1)]).getV 2).toNat ∧
    ((withV [(1, 0xFE), (2, 1)]).getV 1).toNat + ((withV [(1, 0xFE), (2, 1)]).getV 2).toNat < 256 := by decide

/-- The borrow clauses meet at equality. -/
theorem witness_SubtractWithInvertedBorrow :
    ((withV [(1, 5), (2, 5)]).getV 2).toNat ≤ ((withV [(1, 5), (2, 5)]).getV 1).toNat ∧
    ((withV [(1, 4), (2, 5)]).getV 1).toNat < ((withV [(1, 4), (2, 5)]).getV 2).toNat := by decide

theorem witness_RandomByteIsMasked : (at200 0xC30F).status = .running ∧
    (at200 0xC30F).fetch = .instr 0xC30F (.rnd 3 0x0F) := by decide

theorem witness_RandomByteMattersToRndOnly : ∀ w x kk, (at200 0x00E0).fetch ≠ .instr w (.rnd x kk) := by
  have h : (at200 0x00E0).fetch = .instr 0x00E0 .cls := by decide
  intro w x kk e
  rw [h] at e
  cases e

/-- The last transfer that fits and the first that does not. -/
theorem witness_DecimalDigitsAreStored : ({ State.reset with i := 0xFFD } : State).i.toNat + 2 < 4096 ∧
    4096 ≤ ({ State.reset with i := 0xFFE } : State).i.toNat + 2 := by decide

theorem witness_RegistersAreStored : ({ State.reset with i := 0xFF0 } : State).i.toNat + (15 : Idx).val < 4096 ∧
    4096 ≤ ({ State.reset with i := 0xFF1 } : State).i.toNat + (15 : Idx).val := by decide

theorem witness_RegistersAreLoaded : ({ State.reset with i := 0xFFF } : State).i.toNat + (0 : Idx).val < 4096 ∧
    4096 ≤ ({ State.reset with i := 0x1000 } : State).i.toNat + (0 : Idx).val := by decide

theorem witness_StoreThenLoadRestoresRegisters : ∃ (s t u : State) (x : Idx), s.i.toNat + x.val ≤ 4095 ∧
    exec (.storeRegs x) s = .next t ∧ (∀ a, u.byteAt a = t.byteAt a) ∧ u.i = t.i :=
  ⟨{ withV [(2, 9)] with i := 0xFFD }, _, _, 2, by decide,
    eq_next (o := exec (.storeRegs 2) { withV [(2, 9)] with i := 0xFFD }) (by decide), fun _ => rfl, rfl⟩

/-- n = 0 anywhere; the last sprite that fits; the first that does not; and a covered cell that is on. -/
theorem witness_SpriteDrawTogglesAndReportsCollision : ((0 : Idx).val = 0 ∨ 0x1000 + (0 : Idx).val ≤ 4096) ∧
    ((1 : Idx).val = 0 ∨ ({ State.reset with i := 0xFFF } : State).i.toNat + (1 : Idx).val ≤ 4096) ∧
    (1 ≤ (2 : Idx).val ∧ 4096 < ({ State.reset with i := 0xFFF } : State).i.toNat + (2 : Idx).val) ∧
    (SpriteCovers (lit [(0, 0)] State.reset) 0 0 1 0 0 ∧ (lit [(0, 0)] State.reset).cell 0 0 = true) ∧
    (∀ c r, SpriteCovers State.reset 0 0 1 c r → State.reset.cell c r = false) :=
  ⟨by decide, by decide, by decide, ⟨⟨0, 0, by decide, by decide, by decide, by decide, by decide⟩, by decide⟩,
    fun c r _ => by simp [State.cell, Display.cell, State.reset]⟩

/-- Glyph 0 drawn at (0, 0), then again from the state the first draw left, moved back to the same instruction. -/
theorem witness_DoubleDrawRestoresTheDisplay : ∃ (s t u v : State) (x y n : Idx),
    (n.val = 0 ∨ s.i.toNat + n.val ≤ 4096) ∧ exec (.drw x y n) s = .next t ∧ u.i = s.i ∧ u.getV x = s.getV x ∧
    u.getV y = s.getV y ∧ (∀ row < n.val, u.byteAt (s.i.toNat + row) = s.byteAt (s.i.toNat + row)) ∧
    (∀ c r, u.cell c r = t.cell c r) ∧ exec (.drw x y n) u = .next v :=
  ⟨State.reset, _, nextOf (exec (.drw 0 0 1) State.reset), _, 0, 0, 1, by decide, eq_next (o := exec (.drw 0 0 1) State.reset) (by decide), rfl, by decide,
    by decide, fun _ _ => rfl, fun _ _ => rfl,
    eq_next (o := exec (.drw 0 0 1) (nextOf (exec (.drw 0 0 1) State.reset))) (by decide)⟩

/-- Keys 15 and the first index that is no key; pressed and not pressed. -/
theorem witness_SkipsOnAKey : ((withV [(2, 15)]).getV 2).toNat = (15 : Idx).val ∧
    16 ≤ ((withV [(2, 16)]).getV 2).toNat ∧ ((withV [(2, 15)]).setKey 15 true).keys[(15 : Idx)] = true ∧
    (withV [(2, 15)]).keys[(15 : Idx)] = false := by decide

theorem witness_WaitForKey : ((State.reset.setKey 15 true).keys[(15 : Idx)] = true ∧
    ∀ j : Idx, j < 15 → (State.reset.setKey 15 true).keys[j] = false) ∧ ∀ k : Idx, State.reset.keys[k] = false := by
  decide

theorem witness_DelayTimerCountsDecays :
    (∀ op ∈ [HostOp.decayTimers, .setKey 3 true, .decayTimers], op = .decayTimers ∨ op = .readDisplay ∨
      ∃ k b, op = .setKey k b) ∧ ∃ t, exec (.ldDtVx 5) (withV [(5, 1)]) = .next t := by
  refine ⟨fun op h => ?_, _, rfl⟩
  simp only [List.mem_cons, List.not_mem_nil, or_false] at h
  rcases h with rfl | rfl | rfl
  · exact .inl rfl
  · exact .inr (.inr ⟨3, true, rfl⟩)
  · exact .inl rfl

theorem witness_ExecFaultsExactlyAsTheTableSays : State.reset.status = .running := rfl

/-- A step that faults and a load that faults. -/
theorem witness_FaultEntryChangesTheStatusOnly :
    (at200 0xFFFF).status = .running ∧
    (transact (.step 0) (at200 0xFFFF)).2 = .fault ⟨.unimplemented, some 0x200, some 0xFFFF, none⟩ ∧
    (transact (.load (List.replicate 3585 0)) State.reset).2 = .fault loadFaultInfo := by
  refine ⟨rfl, by decide, ?_⟩
  show (State.load State.reset (List.replicate 3585 0)).2 = _
  rw [State.load, test_imageFits_refuses]
  rfl

theorem witness_StepFaultRecordsPcAndWord : ∃ s t : State, step s = .next t ∧ t.status ≠ .running ∧
    s.fetchWord = .ok 0x00EE :=
  ⟨at200 0x00EE, _, eq_next (o := step (at200 0x00EE)) (by decide), by decide, rfl⟩

theorem witness_FaultedIsSticky :
    ({ State.reset with status := fault .unimplemented 0x200 (some 0xFFFF) none } : State).status = .faulted ⟨.unimplemented, some 0x200, some 0xFFFF, none⟩ := rfl

theorem witness_StepStopsOnlyWhenFaulted : State.reset.status = .running ∧
    step { State.reset with status := .faulted loadFaultInfo } = .fault (.halted loadFaultInfo) := ⟨rfl, rfl⟩

/-- The longest image that fits and the shortest that does not. -/
theorem witness_LoadCopiesTheImageOrFaults : State.reset.status = .running ∧
    512 + (List.replicate 3584 (0 : Byte)).length ≤ 4096 ∧ 4096 < 512 + (List.replicate 3585 (0 : Byte)).length :=
  ⟨rfl, by rw [List.length_replicate], by rw [List.length_replicate]; decide⟩

theorem witness_StepsDoNotTouchKeysOrDecayTimers : ∃ s t : State, step s = .next t ∧ t.dt ≠ s.dt :=
  ⟨(withV [(5, 60)]).withFetchWord 16 0xF515, _,
    eq_next (o := step ((withV [(5, 60)]).withFetchWord 16 0xF515)) (by decide), by decide⟩

theorem witness_StepsDoNotTouchKeysOrDecayTimers_st : ∃ s t : State, step s = .next t ∧ t.st ≠ s.st :=
  ⟨(withV [(5, 60)]).withFetchWord 16 0xF518, _,
    eq_next (o := step ((withV [(5, 60)]).withFetchWord 16 0xF518)) (by decide), by decide⟩

theorem witness_MemoryChangesOnlyByTheTwoStores : ∃ (s t : State) (a : Nat), step s = .next t ∧
    t.byteAt a ≠ s.byteAt a :=
  ⟨{ withV [(0, 7)] with i := 0xFFF }.withFetchWord 16 0xF055, _, 0xFFF,
    eq_next (o := step ({ withV [(0, 7)] with i := 0xFFF }.withFetchWord 16 0xF055)) (by decide), by decide⟩

theorem witness_DisplayChangesOnlyByClsAndDrw : ∃ s t : State, step s = .next t ∧ ∃ c r, t.cell c r ≠ s.cell c r :=
  ⟨at200 0xD001, _, eq_next (o := step (at200 0xD001)) (by decide), 0, 0, by decide⟩

theorem witness_IndexChangesOnlyByItsThreeWriters : ∃ s t : State, step s = .next t ∧ t.i ≠ s.i :=
  ⟨at200 0xA300, _, eq_next (o := step (at200 0xA300)) (by decide), by decide⟩

theorem witness_StackChangesOnlyByCallAndRet : ∃ (s t : State) (k : Idx), step s = .next t ∧
    t.stack[k] ≠ s.stack[k] ∧ t.sp ≠ s.sp :=
  ⟨at200 0x2300, _, 0, eq_next (o := step (at200 0x2300)) (by decide), by decide, by decide⟩

theorem witness_VfChangesOnlyByItsWriters : ∃ s t : State, step s = .next t ∧ t.getV 15 ≠ s.getV 15 :=
  ⟨at200 0x6F05, _, eq_next (o := step (at200 0x6F05)) (by decide), by decide⟩

theorem witness_EveryStepMovesPcAsItsInstructionSays : ∃ s t : State, step s = .next t ∧ t.status = .running :=
  ⟨at200 0x3000, _, eq_next (o := step (at200 0x3000)) (by decide), by decide⟩

/-- A state with listed memory, a deep stack and pc at the bound meets the invariant, and takes a step. -/
theorem witness_StepKeepsTheInvariant : ∃ s t : State, s.Inv ∧ step s = .next t :=
  ⟨withMem { State.reset with pc := 0x10FE, sp := 16 } 0x300 [7], _,
    ⟨by decide, by decide, by decide, fun info h => by cases h⟩,
    eq_next (o := step (withMem { State.reset with pc := 0x10FE, sp := 16 } 0x300 [7])) (by decide)⟩

theorem witness_HostOperationsKeepTheInvariant : ({ State.reset with pc := 0x10FE } : State).Inv :=
  ⟨rfl, by decide, fun k h => absurd h (Nat.not_lt_zero _), fun info h => by cases h⟩

end Sys2Proof.Tests
end

section
/-! SUPPORT. Rules that the statements of the scope rest on: one byte of memory written, what a RUNNING step answers,
what the random byte of `stepWith` can do, and what a step leaves to the host. -/

namespace Sys2Proof.Machine

/-! ## Writing one byte of memory (R11, R62) -/

theorem State.memWrite_ok (s : State) {a : Nat} (b : Byte) (h : a < 4096) :
    s.memWrite a b = .ok { s with mem := Memory.write s.fontRom s.mem a b } := if_pos h

theorem State.memWrite_error (s : State) {a : Nat} (b : Byte) (h : 4096 ≤ a) :
    s.memWrite a b = .error (.memory a) := if_neg (Nat.not_lt.2 h)

@[simp] theorem State.byteAt_write (s : State) (a c : Nat) (b : Byte) :
    ({ s with mem := Memory.write s.fontRom s.mem a b } : State).byteAt c = if c = a then b else s.byteAt c :=
  Memory.read_write s.fontRom s.mem a c b

/-! ## Progress: every instruction, and every step in RUNNING, answers a next state -/

theorem State.conclude_answers_next (s : State) (i : Instr) (r : Except Cause State) :
    ∃ t, s.conclude i r = .next t := by
  cases r with
  | ok t => exact ⟨t, s.conclude_ok t i⟩
  | error c => exact ⟨_, s.conclude_error i c⟩

/-- The instructions that can fault end in `conclude`; LD Vx, K has its two ends; the others have one effect. -/
theorem exec_answers_next (i : Instr) (s : State) : ∃ t, exec i s = .next t := by
  cases i with
  | ret | call | drw | skp | sknp | ldB | storeRegs | loadRegs => exact s.conclude_answers_next _ _
  | ldVxK x =>
    show ∃ t, execLdVxK x s = .next t
    unfold execLdVxK
    split <;> exact ⟨_, rfl⟩
  | _ => exact ⟨_, rfl⟩

theorem step_answers_next_of_running {s : State} (h : s.status = .running) : ∃ t, step s = .next t := by
  cases hf : s.fetch with
  | fault c o => exact ⟨_, step_of_fetch_fault h hf⟩
  | instr w i => rw [step_of_fetch_instr h hf]; exact exec_answers_next i s

/-! ## The random byte of `stepWith` (R90, R141) -/

theorem stepWith_of_faulted (r : Byte) {s : State} {info : FaultInfo} (h : s.status = .faulted info) :
    stepWith r s = step s := by
  unfold stepWith; rw [h]

theorem stepWith_of_rnd (r : Byte) {s : State} {w : Word} {x : Idx} {kk : Byte} (h : s.status = .running)
    (hf : s.fetch = .instr w (.rnd x kk)) : stepWith r s = .next (s.random r x kk) := by
  unfold stepWith; rw [h, hf]

theorem stepWith_of_not_rnd (r : Byte) {s : State} (h : ∀ w x kk, s.fetch ≠ .instr w (.rnd x kk)) :
    stepWith r s = step s := by
  unfold stepWith
  split
  · next hf => exact absurd hf (h _ _ _)
  · rfl

theorem stepWith_randomByte (s : State) : stepWith (Config.randomByte s.draws) s = step s := by
  cases hs : s.status with
  | faulted info => exact stepWith_of_faulted _ hs
  | running =>
    by_cases h : ∃ w x kk, s.fetch = .instr w (.rnd x kk)
    · obtain ⟨w, x, kk, hf⟩ := h
      calc stepWith (Config.randomByte s.draws) s
          = .next (s.random (Config.randomByte s.draws) x kk) := stepWith_of_rnd _ hs hf
        _ = exec (.rnd x kk) s := rfl
        _ = step s := (step_of_fetch_instr hs hf).symm
    · exact stepWith_of_not_rnd _ fun w x kk hf => h ⟨w, x, kk, hf⟩

/-! ## The keys and the timers over a step (R34, R180) -/

/-- `t` has the keys, the timers and the font of `s`: what every step keeps, the two timer loads apart (R180, log
entry 2). -/
structure State.SameKeysAndTimers (s t : State) : Prop where
  keys : t.keys = s.keys
  fontRom : t.fontRom = s.fontRom
  dt : t.dt = s.dt
  st : t.st = s.st

theorem State.sameKeysAndTimers_enterFault (s : State) (c : Cause) (o : Option Word) :
    s.SameKeysAndTimers (s.enterFault c o) := ⟨rfl, rfl, rfl, rfl⟩

theorem State.sameKeysAndTimers_skipIf (s : State) (b : Bool) : s.SameKeysAndTimers (s.advance.skipIf b) :=
  ⟨by simp, by simp, by simp, by simp⟩

/-- Fx15 and Fx18 alone write a timer, and no instruction writes a key. -/
theorem exec_sameKeysAndTimers_or_timerLoad {i : Instr} {s t : State} (h : exec i s = .next t) :
    s.SameKeysAndTimers t ∨ (∃ x, i = .ldDtVx x ∧ t = { s.advance with dt := s.getV x }) ∨
      ∃ x, i = .ldStVx x ∧ t = { s.advance with st := s.getV x } := by
  obtain ⟨c, rfl⟩ | h := exec_cases h
  · exact .inl (s.sameKeysAndTimers_enterFault c _)
  cases i with
  | ldDtVx x => exact .inr (.inl ⟨x, rfl, h⟩)
  | ldStVx x => exact .inr (.inr ⟨x, rfl, h⟩)
  | skp | sknp | seImm | sneImm | seReg | sneReg => obtain ⟨b, rfl⟩ := h; exact .inl (s.sameKeysAndTimers_skipIf b)
  | nop | cls | jp | jpV0 => cases h; exact .inl ⟨rfl, rfl, rfl, rfl⟩
  | drw | ldB | storeRegs | loadRegs => obtain ⟨-, rfl⟩ := h; exact .inl ⟨rfl, rfl, rfl, rfl⟩
  | addReg | subReg | shr | subnReg | shl => obtain ⟨_, _, rfl⟩ := h; exact .inl ⟨rfl, rfl, rfl, rfl⟩
  | ldVxK => obtain ⟨_, rfl⟩ | ⟨rfl, -⟩ := h <;> exact .inl ⟨rfl, rfl, rfl, rfl⟩
  | ret | call | ldImm | addImm | ldReg | orReg | andReg | xorReg | ldVxDt | rnd | ldI | addI | ldF =>
    obtain ⟨_, rfl⟩ := h; exact .inl ⟨rfl, rfl, rfl, rfl⟩

theorem step_sameKeysAndTimers_or_timerLoad {s t : State} (h : step s = .next t) :
    s.SameKeysAndTimers t ∨ (∃ w x, s.fetch = .instr w (.ldDtVx x) ∧ t = { s.advance with dt := s.getV x }) ∨
      ∃ w x, s.fetch = .instr w (.ldStVx x) ∧ t = { s.advance with st := s.getV x } := by
  obtain ⟨-, ⟨c, o, -, rfl⟩ | ⟨w, i, hf, he⟩⟩ := step_cases h
  · exact .inl (s.sameKeysAndTimers_enterFault c o)
  · obtain hsame | ⟨x, rfl, ht⟩ | ⟨x, rfl, ht⟩ := exec_sameKeysAndTimers_or_timerLoad he
    · exact .inl hsame
    · exact .inr (.inl ⟨w, x, hf, ht⟩)
    · exact .inr (.inr ⟨w, x, hf, ht⟩)

end Sys2Proof.Machine
end

section
/-! SUPPORT. The statements of the scope, settled. -/

namespace Sys2Proof.Proofs

open Sys2Proof Sys2Proof.Machine

/-- Settles O3: the bound of R62 decides each primitive, and a read after a write is `State.byteAt_write`. -/
theorem memoryPrimitives : Obligations.MemoryPrimitives := by
  intro s a b
  constructor
  · intro h
    refine ⟨s.memRead_ok h, _, s.memWrite_ok b h, ?_, fun c hc => ?_, rfl⟩
    · rw [State.byteAt_write, if_pos rfl]
    · rw [State.byteAt_write, if_neg hc]
  · intro h
    exact ⟨s.memRead_error h, s.memWrite_error b h⟩

/-- Settles O26: away from Cxkk both sides are `step`, and on Cxkk `step` draws the free byte itself. -/
theorem randomByteMattersToRndOnly : Obligations.RandomByteMattersToRndOnly := by
  refine ⟨fun s r q h => ?_, stepWith_randomByte⟩
  rw [stepWith_of_not_rnd r h, stepWith_of_not_rnd q h]

/-- Settles O43: a RUNNING state answers a next state, a FAULTED one its recorded fault. -/
theorem stepStopsOnlyWhenFaulted : Obligations.StepStopsOnlyWhenFaulted := by
  intro s
  refine ⟨step_answers_next_of_running, ?_⟩
  cases hs : s.status with
  | running =>
    obtain ⟨t, ht⟩ := step_answers_next_of_running hs
    rw [ht]
    exact ⟨nofun, nofun⟩
  | faulted info =>
    rw [step_of_faulted hs]
    exact ⟨fun _ h => ⟨info, (Host.Outcome.fault.inj h).symm, rfl⟩, nofun⟩

/-- Settles O47: a step keeps the keys and the timers, or is one of the two timer loads. -/
theorem stepsDoNotTouchKeysOrDecayTimers : Obligations.StepsDoNotTouchKeysOrDecayTimers := by
  intro s t h
  obtain hsame | ⟨w, x, hf, rfl⟩ | ⟨w, x, hf, rfl⟩ := step_sameKeysAndTimers_or_timerLoad h
  · exact ⟨hsame.keys, hsame.fontRom, fun hdt => absurd hsame.dt hdt, fun hst => absurd hsame.st hst⟩
  · exact ⟨rfl, rfl, fun _ => ⟨w, x, hf, rfl⟩, fun hst => absurd rfl hst⟩
  · exact ⟨rfl, rfl, fun hdt => absurd rfl hdt, fun _ => ⟨w, x, hf, rfl⟩⟩

end Sys2Proof.Proofs
end

section
/-! SUPPORT. The decoder misses no legal word: every row of the opcode map is an arm of `decode` (R85, R86, R91). -/

namespace Sys2Proof

/-- A row whose mask covers the whole word matches its pattern alone (R87). -/
theorem decode_isSome_of_wholeWord {w pattern : Word} (hm : w &&& 0xFFFF#16 = pattern)
    (hd : (decode pattern).isSome = true) : (decode w).isSome = true := by
  rwa [← hm, and_FFFF] at hd

theorem decode_isSome_of_rowLow {r : OpcodeRow} {w : Word} (hr : r ∈ opcodeRowsLow) (hm : w &&& r.mask = r.pattern) :
    (decode w).isSome = true := by
  simp only [opcodeRowsLow, List.mem_cons, List.not_mem_nil, or_false] at hr
  rcases hr with rfl | rfl | rfl | rfl | rfl | rfl | rfl | rfl | rfl | rfl
  iterate 3 exact decode_isSome_of_wholeWord hm rfl
  iterate 4 simp [decode, family_of_mask hm rfl]
  · simp [decode, whenNZero, family_of_mask hm rfl, selector_of_mask hm rfl]
  iterate 2 simp [decode, family_of_mask hm rfl]

theorem decode_isSome_of_rowAlu {r : OpcodeRow} {w : Word} (hr : r ∈ opcodeRowsAlu) (hm : w &&& r.mask = r.pattern) :
    (decode w).isSome = true := by
  simp only [opcodeRowsAlu, List.mem_cons, List.not_mem_nil, or_false] at hr
  rcases hr with rfl | rfl | rfl | rfl | rfl | rfl | rfl | rfl | rfl <;>
    simp [decode, decodeFamily8, family_of_mask hm rfl, selector_of_mask hm rfl]

theorem decode_isSome_of_rowMid {r : OpcodeRow} {w : Word} (hr : r ∈ opcodeRowsMid) (hm : w &&& r.mask = r.pattern) :
    (decode w).isSome = true := by
  simp only [opcodeRowsMid, List.mem_cons, List.not_mem_nil, or_false] at hr
  rcases hr with rfl | rfl | rfl | rfl | rfl | rfl | rfl
  · simp [decode, whenNZero, family_of_mask hm rfl, selector_of_mask hm rfl]
  iterate 4 simp [decode, family_of_mask hm rfl]
  iterate 2 simp [decode, decodeFamilyE, family_of_mask hm rfl, kk_of_mask hm rfl]

theorem decode_isSome_of_rowF {r : OpcodeRow} {w : Word} (hr : r ∈ opcodeRowsF) (hm : w &&& r.mask = r.pattern) :
    (decode w).isSome = true := by
  simp only [opcodeRowsF, List.mem_cons, List.not_mem_nil, or_false] at hr
  rcases hr with rfl | rfl | rfl | rfl | rfl | rfl | rfl | rfl | rfl <;>
    simp [decode, decodeFamilyF, family_of_mask hm rfl, kk_of_mask hm rfl]

/-- A word that some row matches is an instruction. -/
theorem decode_isSome_of_legalWord {w : Word} (h : legalWord w = true) : (decode w).isSome = true := by
  obtain ⟨r, hr, hm⟩ := List.any_eq_true.1 h
  replace hm : w &&& r.mask = r.pattern := eq_of_beq hm
  simp only [opcodeMap, List.mem_append] at hr
  obtain ((hr | hr) | hr) | hr := hr
  · exact decode_isSome_of_rowLow hr hm
  · exact decode_isSome_of_rowAlu hr hm
  · exact decode_isSome_of_rowMid hr hm
  · exact decode_isSome_of_rowF hr hm

theorem legalWord_eq_false_of_decode_eq_none {w : Word} (h : decode w = none) : legalWord w = false :=
  Bool.eq_false_iff.2 fun hl => by simpa [h] using decode_isSome_of_legalWord hl

end Sys2Proof
end

section
/-! SUPPORT. What each operation and each instruction may write (`Frame`), said once: the frame rules of the state's
operations, the footprint of an instruction, and the frame of every instruction and every step. -/

namespace Sys2Proof.Machine

/-- A frame under which the memory list also stays canonical (log entry 5). -/
structure WfFrame (s t : State) (w : Writes) : Prop extends Frame s t w where
  memWf : Memory.wf s.fontRom s.mem = true → Memory.wf t.fontRom t.mem = true

namespace WfFrame

variable {s t : State} {w : Writes}

theorem refl (s : State) : WfFrame s s {} where
  regs _ _ := rfl
  index _ := rfl
  mem _ _ := rfl
  disp _ _ _ := rfl
  stackSlot _ _ := rfl
  sp _ := rfl
  dt _ := rfl
  st _ := rfl
  draws _ := rfl
  keys := rfl
  status := rfl
  fontRom := rfl
  memWf := id

/-! ### Operations that write pc alone -/

theorem advance (h : WfFrame s t w) : WfFrame s t.advance w := { h with keys := h.keys }

theorem jumpTo (h : WfFrame s t w) (target : Word) : WfFrame s (t.jumpTo target) w := { h with keys := h.keys }

theorem skipIf (h : WfFrame s t w) (b : Bool) : WfFrame s (t.skipIf b) w := by
  cases b with
  | true => exact { h with keys := h.keys }
  | false => exact h

/-! ### Registers -/

/-- The registers replaced by `v`, which differs from the old ones only where `p` says. -/
theorem setRegs (h : WfFrame s t w) (v : Vector Byte 16) (p : Idx → Bool) (hv : ∀ k, p k = false → v[k] = t.getV k) :
    WfFrame s { t with v := v } { w with regs := fun k => w.regs k || p k } :=
  { h with
    regs := fun k hk => by
      obtain ⟨hw, hp⟩ := Bool.or_eq_false_iff.1 hk
      exact (hv k hp).trans (h.regs k hw) }

theorem setV (h : WfFrame s t w) (x : Idx) (b : Byte) :
    WfFrame s (t.setV x b) { w with regs := fun k => w.regs k || k == x } :=
  h.setRegs _ _ fun k hk => (t.setV_getV x k b).trans (if_neg (beq_eq_false_iff_ne.1 hk))

theorem setFlag (h : WfFrame s t w) (c : Bool) :
    WfFrame s (t.setFlag c) { w with regs := fun k => w.regs k || k == vf } := h.setV vf (flagByte c)

theorem setVPrefix (h : WfFrame s t w) (x : Idx) {bs : List Byte} (hbs : bs.length = x.val + 1) :
    WfFrame s (t.setVPrefix bs) { w with regs := fun k => w.regs k || decide (k ≤ x) } :=
  h.setRegs _ _ fun k hk =>
    have hlen : bs.length ≤ k.val := hbs.symm ▸ not_le.1 (of_decide_eq_false hk)
    (t.setVPrefix_getV bs k).trans (List.getD_eq_default _ _ hlen)

theorem setI (h : WfFrame s t w) (a : Word) : WfFrame s (t.setI a) { w with index := true } :=
  { h with index := nofun }

theorem setDt (h : WfFrame s t w) (b : Byte) : WfFrame s { t with dt := b } { w with dt := true } :=
  { h with dt := nofun }

theorem setSt (h : WfFrame s t w) (b : Byte) : WfFrame s { t with st := b } { w with st := true } :=
  { h with st := nofun }

theorem setDraws (h : WfFrame s t w) (n : Nat) : WfFrame s { t with draws := n } { w with draws := true } :=
  { h with draws := nofun }

/-! ### Stack, display and memory -/

theorem setSp (h : WfFrame s t w) (p : Fin 17) : WfFrame s { t with sp := p } { w with sp := true } :=
  { h with sp := nofun }

theorem setStackSlot (h : WfFrame s t w) (j : Nat) (hj : j < 16) (a : Word) :
    WfFrame s { t with stack := t.stack.set j a } { w with stackSlot := fun k => w.stackSlot k || k.val == j } :=
  { h with
    stackSlot := fun k hk => by
      obtain ⟨hw, hk⟩ := Bool.or_eq_false_iff.1 hk
      exact (Vector.getElem_set_ne hj k.isLt (beq_eq_false_iff_ne.1 hk).symm).trans (h.stackSlot k hw) }

theorem setDisp (h : WfFrame s t w) (d : Display) : WfFrame s { t with disp := d } { w with disp := true } :=
  { h with disp := nofun }

theorem store (h : WfFrame s t w) (base n : Nat) {bs : List Byte} (hn : bs.length = n) (hb : base + n ≤ 4096) :
    WfFrame s { t with mem := Memory.writeMany t.fontRom t.mem base bs }
      { w with mem := fun a => w.mem a || (decide (base ≤ a) && decide (a < base + n)) } :=
  { h with
    mem := fun a ha => by
      obtain ⟨hw, ha⟩ := Bool.or_eq_false_iff.1 ha
      refine ((Memory.read_writeMany t.fontRom t.mem base bs a).trans (dif_neg ?_)).trans (h.mem a hw)
      simpa [hn] using ha
    memWf := fun hm => Memory.wf_writeMany base bs (hn ▸ hb) (h.memWf hm) }

end WfFrame

/-! ## The footprint of an instruction -/

/-- What an instruction that completes may write beside pc, from the rules of its family (40_flow.md to
44_timers_keys.md). -/
def State.writes (s : State) : Instr → Writes
  | .nop | .jp _ | .jpV0 _ | .seImm _ _ | .sneImm _ _ | .seReg _ _ | .sneReg _ _ | .skp _ | .sknp _ => {}
  | .cls => { disp := true }
  | .ret => { sp := true }
  | .call _ => { stackSlot := fun k => k.val == s.sp.val, sp := true }
  | .ldImm x _ | .addImm x _ | .ldReg x _ | .orReg x _ | .andReg x _ | .xorReg x _ | .ldVxDt x | .ldVxK x =>
    { regs := fun k => k == x }
  | .addReg x _ | .subReg x _ | .shr x | .subnReg x _ | .shl x => { regs := fun k => k == x || k == vf }
  | .rnd x _ => { regs := fun k => k == x, draws := true }
  | .drw _ _ _ => { regs := fun k => k == vf, disp := true }
  | .ldI _ | .addI _ | .ldF _ => { index := true }
  | .ldDtVx _ => { dt := true }
  | .ldStVx _ => { st := true }
  | .ldB _ => { mem := fun a => decide (s.i.toNat ≤ a) && decide (a < s.i.toNat + 3) }
  | .storeRegs x => { mem := fun a => decide (s.i.toNat ≤ a) && decide (a < s.i.toNat + (x.val + 1)) }
  | .loadRegs x => { regs := fun k => decide (k ≤ x) }

/-- An instruction enters a fault, or writes pc and its footprint alone. -/
theorem exec_enterFault_or_frame {i : Instr} {s t : State} (h : exec i s = .next t) :
    (∃ c, t = s.enterFault c (some (encode i))) ∨ WfFrame s t (s.writes i) := by
  refine (exec_cases h).imp_right fun h => ?_
  have hadv := (WfFrame.refl s).advance
  cases i with
  | nop => cases h; exact hadv
  | cls => cases h; exact hadv.setDisp _
  | jp | jpV0 => cases h; exact hadv.jumpTo _
  | ret =>
    obtain ⟨_, rfl⟩ := h
    exact ((WfFrame.refl s).setSp ⟨s.sp.val - 1, _⟩).jumpTo (s.stack[s.sp.val - 1]'(by omega))
  | call => obtain ⟨hsp, rfl⟩ := h; exact (((WfFrame.refl s).setStackSlot _ hsp _).setSp _).jumpTo _
  | skp | sknp | seImm | sneImm | seReg | sneReg => obtain ⟨b, rfl⟩ := h; exact hadv.skipIf b
  | ldImm | addImm | ldReg | orReg | andReg | xorReg | ldVxDt => obtain ⟨b, rfl⟩ := h; exact hadv.setV _ b
  | ldVxK =>
    obtain ⟨b, rfl⟩ | ⟨rfl, -⟩ := h
    · exact hadv.setV _ b
    · exact { WfFrame.refl t with regs := fun _ _ => rfl }
  | addReg | subReg | shr | subnReg | shl => obtain ⟨b, c, rfl⟩ := h; exact (hadv.setV _ b).setFlag c
  | rnd => obtain ⟨b, rfl⟩ := h; exact (hadv.setV _ _).setDraws _
  | drw => obtain ⟨-, rfl⟩ := h; exact (hadv.setDisp _).setFlag _
  | ldI | addI | ldF => obtain ⟨a, rfl⟩ := h; exact hadv.setI a
  | ldDtVx => cases h; exact hadv.setDt _
  | ldStVx => cases h; exact hadv.setSt _
  | ldB => obtain ⟨hb, rfl⟩ := h; exact hadv.store _ _ rfl hb
  | storeRegs x => obtain ⟨hb, rfl⟩ := h; exact hadv.store _ _ (s.getVPrefix_length x) hb
  | loadRegs x => obtain ⟨-, rfl⟩ := h; exact hadv.setVPrefix x (by simp)

/-- A step enters a fault, or executes the instruction it fetched, within its footprint. -/
theorem step_enterFault_or_frame {s t : State} (h : step s = .next t) :
    (∃ c o, t = s.enterFault c o) ∨
      ∃ w i, s.fetch = .instr w i ∧ exec i s = .next t ∧ WfFrame s t (s.writes i) := by
  obtain ⟨-, ⟨c, o, -, rfl⟩ | ⟨w, i, hf, he⟩⟩ := step_cases h
  · exact .inl ⟨c, o, rfl⟩
  · obtain ⟨c, rfl⟩ | hw := exec_enterFault_or_frame he
    · exact .inl ⟨c, _, rfl⟩
    · exact .inr ⟨w, i, hf, he, hw⟩

end Sys2Proof.Machine
end

section
/-! SUPPORT. What a step raises: the causes of R201 and R204, and that every fault a step enters is a row of R203. -/

namespace Sys2Proof.Machine

/-- The causes an instruction can raise in execute, with the condition of each (R102, R104, R150, R172, R183, R204). -/
def State.Raises (s : State) (c : Cause) : Instr → Prop
  | .ret => s.sp.val = 0 ∧ c = ⟨.stackUnderflow, none⟩
  | .call _ => ¬ s.sp.val < 16 ∧ c = ⟨.stackOverflow, none⟩
  | .skp x | .sknp x => ¬ (s.getV x).toNat < 16 ∧ c = .key (s.getV x).toNat
  | .drw _ _ n => ¬ (n.val = 0 ∨ s.i.toNat + n.val ≤ 4096) ∧ c = .memory (max s.i.toNat 4096)
  | .ldB _ => ¬ s.i.toNat + 3 ≤ 4096 ∧ c = .memory (max s.i.toNat 4096)
  | .storeRegs x | .loadRegs x => ¬ s.i.toNat + (x.val + 1) ≤ 4096 ∧ c = .memory (max s.i.toNat 4096)
  | _ => False

/-- An instruction leaves the status as it was, or enters a fault it can raise. -/
theorem exec_status_or_raises {i : Instr} {s t : State} (h : exec i s = .next t) :
    t.status = s.status ∨ ∃ c, s.Raises c i ∧ t = s.enterFault c (some (encode i)) := by
  cases i with
  | ret =>
    simp only [exec, execRet_eq] at h
    split at h <;> cases h
    · exact .inr ⟨_, ⟨‹_›, rfl⟩, rfl⟩
    · exact .inl rfl
  | call | skp | sknp | drw | ldB | storeRegs | loadRegs =>
    simp only [exec, execCall_eq, execSkp_eq, execSknp_eq, execDrw_eq, execLdB_eq, execStoreRegs_eq,
      execLoadRegs_eq] at h
    split at h <;> cases h
    · exact .inl (by simp)
    · exact .inr ⟨_, ⟨‹_›, rfl⟩, rfl⟩
  | ldVxK =>
    simp only [exec, execLdVxK] at h
    split at h <;> cases h <;> exact .inl rfl
  | seImm | sneImm | seReg | sneReg => cases h; exact .inl (State.skipIf_status _ _)
  | _ => cases h; exact .inl rfl

/-- Every cause an instruction can raise is a row of R203 with the instruction's word. -/
theorem State.Raises.coherent {s : State} {c : Cause} {i : Instr} (h : s.Raises c i) :
    FaultInfo.Coherent ⟨c.kind, some s.pc, some (encode i), c.loc⟩ := by
  cases i with
  | ret => obtain ⟨-, rfl⟩ := h; exact ⟨nofun, rfl, rfl⟩
  | call nnn => obtain ⟨-, rfl⟩ := h; exact ⟨nofun, ⟨nnn, rfl⟩, rfl⟩
  | skp x | sknp x =>
    obtain ⟨hk, rfl⟩ := h
    exact ⟨nofun, .inr ⟨_, not_lt.1 hk, (s.getV x).isLt, rfl, nofun⟩⟩
  | drw | ldB | storeRegs | loadRegs =>
    obtain ⟨-, rfl⟩ := h
    exact ⟨nofun, .inl ⟨_, le_max_right _ _, rfl⟩⟩
  | _ => exact h.elim

/-- Every fault of the fetch or of the decoder is a row of R203. -/
theorem State.fetch_fault_coherent {s : State} {c : Cause} {o : Option Word} (h : s.fetch = .fault c o) :
    FaultInfo.Coherent ⟨c.kind, some s.pc, o, c.loc⟩ := by
  obtain ⟨-, rfl, rfl⟩ | ⟨w, -, hd, rfl, rfl⟩ := State.fetch_eq_fault h
  · exact ⟨nofun, .inl ⟨_, le_max_right _ _, rfl⟩⟩
  · exact ⟨nofun, ⟨w, rfl, legalWord_eq_false_of_decode_eq_none hd⟩, rfl⟩

/-- A step that does not answer a RUNNING state entered a fault that is a row of R203. -/
theorem step_enters_coherent_fault {s t : State} (h : step s = .next t) (ht : t.status ≠ .running) :
    ∃ c o, t = s.enterFault c o ∧ FaultInfo.Coherent ⟨c.kind, some s.pc, o, c.loc⟩ := by
  obtain ⟨hs, ⟨c, o, hf, rfl⟩ | ⟨w, i, -, he⟩⟩ := step_cases h
  · exact ⟨c, o, rfl, State.fetch_fault_coherent hf⟩
  · obtain hst | ⟨c, hr, rfl⟩ := exec_status_or_raises he
    · exact absurd (hst.trans hs) ht
    · exact ⟨c, _, rfl, hr.coherent⟩

/-- A step that answers a RUNNING state executed the instruction it fetched, within its footprint. -/
theorem step_frame_of_running {s t : State} (h : step s = .next t) (ht : t.status = .running) :
    ∃ w i, s.fetch = .instr w i ∧ exec i s = .next t ∧ WfFrame s t (s.writes i) := by
  obtain ⟨c, o, rfl⟩ | hex := step_enterFault_or_frame h
  · cases ht
  · exact hex

end Sys2Proof.Machine
end

section
/-! SUPPORT. The statements of 10_state.md about one step, settled. -/

namespace Sys2Proof.Proofs

open Sys2Proof Sys2Proof.Machine

/-- Settles O50: the footprints that list I are those of its three writers. -/
theorem indexChangesOnlyByItsThreeWriters : Obligations.IndexChangesOnlyByItsThreeWriters := by
  intro s t h hne
  obtain ⟨c, o, rfl⟩ | ⟨w, i, hf, -, hw⟩ := step_enterFault_or_frame h
  · exact absurd rfl hne
  cases i with
  | ldI nnn => exact .inl ⟨w, nnn, hf⟩
  | addI x => exact .inr (.inl ⟨w, x, hf⟩)
  | ldF x => exact .inr (.inr ⟨w, x, hf⟩)
  | _ => exact absurd (hw.index rfl) hne

/-- Settles O51: CALL alone has a stack entry in its footprint, CALL and RET alone have sp, and `exec_cases` gives the
new sp. -/
theorem stackChangesOnlyByCallAndRet : Obligations.StackChangesOnlyByCallAndRet := by
  intro s t h
  obtain ⟨c, o, rfl⟩ | ⟨w, i, hf, he, hw⟩ := step_enterFault_or_frame h
  · exact ⟨fun k hk => absurd rfl hk, fun hsp => absurd rfl hsp⟩
  constructor
  · intro k hk
    cases i with
    | call nnn => exact ⟨by_contra fun hne => hk (hw.stackSlot k (beq_false_of_ne hne)), w, nnn, hf⟩
    | _ => exact absurd (hw.stackSlot k rfl) hk
  · intro hsp
    cases i with
    | call nnn =>
      obtain ⟨c, rfl⟩ | ⟨_, rfl⟩ := exec_cases he
      · exact absurd rfl hsp
      · exact .inl ⟨rfl, w, nnn, hf⟩
    | ret =>
      obtain ⟨c, rfl⟩ | ⟨hpos, rfl⟩ := exec_cases he
      · exact absurd rfl hsp
      · exact .inr ⟨Nat.sub_add_cancel hpos, w, hf⟩
    | _ => exact absurd (hw.sp rfl) hsp

/-- Settles O52: the footprints that list VF are those of the flag writers, and of the register writers with x = 15. -/
theorem vfChangesOnlyByItsWriters : Obligations.VfChangesOnlyByItsWriters := by
  intro s t h hne
  obtain ⟨c, o, rfl⟩ | ⟨w, i, hf, -, hw⟩ := step_enterFault_or_frame h
  · exact absurd rfl hne
  refine ⟨w, i, hf, ?_⟩
  have hreg : (s.writes i).regs 15 = true := Bool.of_not_eq_false fun hfalse => hne (hw.regs 15 hfalse)
  cases i with
  | addReg x y | subReg x y | subnReg x y | drw x y => exact .inl ⟨x, y, by simp⟩
  | shr x | shl x => exact .inl ⟨x, 0, by simp⟩
  | ldImm x kk | addImm x kk | rnd x kk => obtain rfl := eq_of_beq hreg; exact .inr ⟨0, kk, by simp⟩
  | ldReg x y | orReg x y | andReg x y | xorReg x y => obtain rfl := eq_of_beq hreg; exact .inr ⟨y, 0, by simp⟩
  | ldVxDt x | ldVxK x => obtain rfl := eq_of_beq hreg; exact .inr ⟨0, 0, by simp⟩
  | loadRegs x => obtain rfl : x = 15 := Fin.last_le_iff.1 (of_decide_eq_true hreg); exact .inr ⟨0, 0, by simp⟩
  | _ => cases hreg

/-- Settles O53: `exec_cases` gives pc for each instruction; JP V0 does not wrap, because its sum is below 2^16. -/
theorem everyStepMovesPcAsItsInstructionSays : Obligations.EveryStepMovesPcAsItsInstructionSays := by
  intro s t h ht
  obtain ⟨w, i, hf, he, -⟩ := step_frame_of_running h ht
  refine ⟨w, i, hf, ?_⟩
  obtain ⟨c, rfl⟩ | h := exec_cases he
  · cases ht
  cases i with
  | jp nnn => cases h; exact zextNnn_toNat nnn
  | call nnn => obtain ⟨_, rfl⟩ := h; exact zextNnn_toNat nnn
  | jpV0 nnn =>
    cases h
    show (zextNnn nnn + zextByte (s.getV 0)).toNat = _
    have hnnn := nnn.isLt
    have hv := (s.getV 0).isLt
    rw [BitVec.toNat_add, zextNnn_toNat, zextByte_toNat]
    omega
  | ret => obtain ⟨hpos, rfl⟩ := h; exact ⟨⟨s.sp.val - 1, by omega⟩, (Nat.sub_add_cancel hpos).symm, rfl⟩
  | seImm | sneImm | seReg | sneReg | skp | sknp =>
    obtain ⟨b, rfl⟩ := h
    cases b with
    | true => exact .inr s.skip_advance_pc
    | false => exact .inl rfl
  | ldVxK =>
    obtain ⟨k, rfl⟩ | ⟨rfl, hk⟩ := h
    · exact .inl rfl
    · exact .inr ⟨rfl, hk⟩
  | nop | cls | ldDtVx | ldStVx => cases h; rfl
  | drw | ldB | storeRegs | loadRegs => obtain ⟨-, rfl⟩ := h; rfl
  | addReg | subReg | shr | subnReg | shl => obtain ⟨_, _, rfl⟩ := h; rfl
  | ldImm | addImm | ldReg | orReg | andReg | xorReg | ldVxDt | rnd | ldI | addI | ldF =>
    obtain ⟨_, rfl⟩ := h; rfl

end Sys2Proof.Proofs
end

section
/-! SUPPORT. The invariant: the reset state has it, and every step and every host operation keeps it. -/

namespace Sys2Proof.Machine

theorem State.reset_inv : State.reset.Inv :=
  ⟨State.reset_wf, by decide, fun _ hk => absurd hk (Nat.not_lt_zero _), nofun⟩

namespace State.Inv

variable {s t : State}

/-- Fault entry keeps the invariant when the fault is a row of R203. -/
theorem enterFault (hs : s.Inv) {c : Cause} {o : Option Word}
    (hc : FaultInfo.Coherent ⟨c.kind, some s.pc, o, c.loc⟩) : (s.enterFault c o).Inv :=
  ⟨hs.mem, hs.pc, hs.stack, fun info h => by cases h; exact ⟨hc, .inr rfl⟩⟩

/-- R23: the largest target is that of JP V0, and every other instruction ends at most 4 above a fetched pc, or at a
return address. -/
theorem step_pc_le (hs : s.Inv) (h : step s = .next t) (ht : t.status = .running) : t.pc.toNat ≤ 0x10FE := by
  obtain ⟨w, i, hf, hpc⟩ := Proofs.everyStepMovesPcAsItsInstructionSays s t h ht
  have hlt := State.pc_lt_of_fetch hf
  cases i with
  | jp nnn | call nnn =>
    have := nnn.isLt
    dsimp only at hpc
    omega
  | jpV0 nnn =>
    have := nnn.isLt
    have := (s.getV 0).isLt
    dsimp only at hpc
    omega
  | ret =>
    obtain ⟨j, hj, hpc⟩ := hpc
    have := hs.stack j (by omega)
    rw [hpc]; omega
  | seImm | sneImm | seReg | sneReg | skp | sknp => obtain hpc | hpc := hpc <;> bv_omega
  | ldVxK =>
    obtain hpc | ⟨hpc, -⟩ := hpc <;> bv_omega
  | _ => dsimp only at hpc; bv_omega

/-- R23, D25: a step pushes the address after a fetched CALL, at most 4096, and keeps the entries in use. -/
theorem step_stack_le (hs : s.Inv) (h : step s = .next t) (ht : t.status = .running) (k : Idx)
    (hk : k.val < t.sp.val) : (t.stack[k]).toNat ≤ 4096 := by
  obtain ⟨w, i, hf, he, hw⟩ := step_frame_of_running h ht
  have hlt := State.pc_lt_of_fetch hf
  cases i with
  | call nnn =>
    obtain ⟨c, rfl⟩ | ⟨hsp, rfl⟩ := exec_cases he
    · cases ht
    show ((s.stack.set s.sp.val (s.pc + 2) hsp)[k.val]).toNat ≤ 4096
    rw [Vector.getElem_set]
    split
    · bv_omega
    · exact hs.stack k (by have : k.val < s.sp.val + 1 := hk; omega)
  | ret =>
    rw [hw.stackSlot k rfl]
    obtain ⟨c, rfl⟩ | ⟨hpos, rfl⟩ := exec_cases he
    · cases ht
    exact hs.stack k (hk.trans_le (Nat.sub_le _ _))
  | _ => rw [hw.stackSlot k rfl]; exact hs.stack k (hw.sp rfl ▸ hk)

end State.Inv

/-- Every step keeps the invariant: a step that stays RUNNING by its footprint and the two bounds, a fault by its row of
R203. -/
theorem step_keeps_inv {s t : State} (hs : s.Inv) (h : step s = .next t) : t.Inv := by
  by_cases ht : t.status = .running
  · obtain ⟨w, i, -, -, hw⟩ := step_frame_of_running h ht
    exact ⟨hw.memWf hs.mem, hs.step_pc_le h ht, hs.step_stack_le h ht, fun info hinfo => nomatch ht.symm.trans hinfo⟩
  · obtain ⟨c, o, rfl, hc⟩ := step_enters_coherent_fault h ht
    exact hs.enterFault hc

/-- The byte that Cxkk draws plays no part in the invariant. -/
theorem stepWith_keeps_inv {s t : State} {r : Byte} (hs : s.Inv) (h : stepWith r s = .next t) : t.Inv := by
  by_cases hrnd : s.status = .running ∧ ∃ w x kk, s.fetch = .instr w (.rnd x kk)
  · obtain ⟨hrun, w, x, kk, hf⟩ := hrnd
    cases (stepWith_of_rnd r hrun hf).symm.trans h
    obtain ⟨hmem, hpc, hstack, hstatus⟩ := step_keeps_inv hs (step_of_fetch_instr hrun hf)
    exact ⟨hmem, hpc, hstack, hstatus⟩
  · refine step_keeps_inv hs (.trans ?_ h)
    cases hst : s.status with
    | faulted info => exact (stepWith_of_faulted r hst).symm
    | running => exact (stepWith_of_not_rnd r fun w x kk hf => hrnd ⟨hst, w, x, kk, hf⟩).symm

/-! ## Host operations (R215 to R222) -/

theorem State.reinitialize_inv (s : State) : s.reinitialize.Inv :=
  ⟨Memory.wf_nil s.fontRom, State.reset_inv.pc, State.reset_inv.stack, State.reset_inv.status⟩

/-- `load` keeps memory canonical and sets pc to 0x200; an image that does not fit is the row of R203 without pc. -/
theorem State.load_keeps_inv {s : State} (hs : s.Inv) (image : List Byte) : (s.load image).1.Inv := by
  unfold State.load
  split
  · exact hs
  next hrun =>
    split
    next hfits =>
      exact ⟨Memory.wf_writeMany _ image (of_decide_eq_true hfits) hs.mem, State.reset_inv.pc, hs.stack,
        fun info h => nomatch hrun.symm.trans h⟩
    next =>
      refine ⟨hs.mem, hs.pc, hs.stack, fun info h => ?_⟩
      cases h
      exact ⟨⟨fun _ => ⟨rfl, rfl⟩, .inl ⟨4096, le_rfl, rfl⟩⟩, .inl rfl⟩

/-- The host's `step` leaves the state of `stepWith` where that answers a next state, and the old one where it stops. -/
theorem State.hostStep_state (s : State) (r : Byte) :
    (s.hostStep r).1 = s ∨ stepWith r s = .next (s.hostStep r).1 := by
  unfold State.hostStep
  cases stepWith r s with
  | next t =>
    right
    dsimp only
    split <;> rfl
  | fault f => exact .inl rfl
  | refused q => exact .inl rfl

theorem transact_keeps_inv {s : State} (hs : s.Inv) (op : HostOp) : (transact op s).1.Inv := by
  cases op with
  | init | reset => exact s.reinitialize_inv
  | load image => exact State.load_keeps_inv hs image
  | step r =>
    obtain h | h := s.hostStep_state r
    · exact h.symm ▸ hs
    · exact stepWith_keeps_inv hs h
  | decayTimers | setKey | readDisplay => exact ⟨hs.mem, hs.pc, hs.stack, hs.status⟩

theorem transactAll_keeps_inv {s : State} (hs : s.Inv) (ops : List HostOp) : (transactAll ops s).1.Inv := by
  induction ops generalizing s with
  | nil => exact hs
  | cons op ops ih => exact ih (transact_keeps_inv hs op)

/-! ## The table of R39 -/

theorem State.reinitialize_byteAt (s : State) (a : Nat) : s.reinitialize.byteAt a = Memory.unlisted s.fontRom a :=
  Memory.read_nil s.fontRom a

end Sys2Proof.Machine
end

section
/-! SUPPORT. The statements of 10_state.md about reset, the invariant and the bound of pc, settled. -/

namespace Sys2Proof.Proofs

open Sys2Proof Sys2Proof.Machine

/-- Settles O1: the operations answer `State.reinitialize`, whose memory lists nothing and reads as its reset contents. -/
theorem resetGivesTheTable : Obligations.ResetGivesTheTable := by
  intro s op hop
  refine ⟨s.reinitialize, by obtain rfl | rfl := hop <;> rfl, rfl, fun a => ?_, fun a hlo _ => ?_,
    State.reset_cell, State.reset_getV, rfl, rfl, fun k => ?_, fun k => ?_, rfl, rfl, rfl⟩
  · rw [State.reinitialize_byteAt, Memory.unlisted_of_lt _ _ a.isLt]; rfl
  · rw [State.reinitialize_byteAt, Memory.unlisted_of_ge _ _ hlo]
  · exact Vector.getElem_replicate k.isLt
  · exact Vector.getElem_replicate k.isLt

/-- Settles O54: reset memory lists nothing, no return address is in use, and no fault is recorded. -/
theorem resetMeetsTheInvariant : Obligations.ResetMeetsTheInvariant := State.reset_inv

/-- Settles O55: `step_keeps_inv`. -/
theorem stepKeepsTheInvariant : Obligations.StepKeepsTheInvariant := fun _ _ => step_keeps_inv

/-- Settles O2: the bound is a part of the invariant, and JP V0 reaches it with nnn = 0xFFF and V0 = 0xFF. -/
theorem pcNeverExceeds0x10FE : Obligations.PcNeverExceeds0x10FE :=
  ⟨fun ops => (transactAll_keeps_inv State.reset_inv ops).pc,
    [.load [0x60, 0xFF, 0xBF, 0xFF], .step 0, .step 0], by decide⟩

end Sys2Proof.Proofs
end

section
/-! SUPPORT. The canonical form of memory determines its list (log entry 5), and what LD [I], Vx leaves in memory. -/

namespace Sys2Proof.Machine

/-! ## Canonical lists: the reads determine the list -/

theorem Memory.risingFrom_cons (lo : Nat) (c : Host.Cell) (m : Memory) :
    Memory.risingFrom lo (c :: m) = true ↔ lo ≤ c.1 ∧ Memory.risingFrom (c.1 + 1) m = true := by
  simp [Memory.risingFrom]

theorem Memory.find_cons (c : Host.Cell) (m : Memory) (a : Nat) :
    Memory.find (c :: m) a = if a = c.1 then some c.2 else Memory.find m a := rfl

theorem Memory.mem_of_find_eq_some {m : Memory} {a : Nat} {v : Byte} (h : m.find a = some v) : (a, v) ∈ m := by
  induction m with
  | nil => cases h
  | cons c m ih =>
    rw [Memory.find_cons] at h
    split at h
    · next ha => obtain rfl := Option.some.inj h; exact ha ▸ List.mem_cons_self
    · exact List.mem_cons_of_mem c (ih h)

theorem Memory.find_eq_none_of_lt {m : Memory} {lo a : Nat} (hm : Memory.risingFrom lo m = true) (ha : a < lo) :
    m.find a = none := by
  induction m generalizing lo with
  | nil => rfl
  | cons c m ih =>
    obtain ⟨hlo, hm⟩ := (Memory.risingFrom_cons lo c m).1 hm
    rw [Memory.find_cons, if_neg (by omega), ih hm (by omega)]

/-- An address listed by a rising list is no lower than the list's first one. -/
theorem Memory.head_le_of_find_eq_some {c : Host.Cell} {m : Memory} {lo a : Nat} {v : Byte}
    (hm : Memory.risingFrom lo (c :: m) = true) (ha : Memory.find (c :: m) a = some v) : c.1 ≤ a := by
  have hc : Memory.risingFrom c.1 (c :: m) = true :=
    (Memory.risingFrom_cons c.1 c m).2 ⟨le_rfl, ((Memory.risingFrom_cons lo c m).1 hm).2⟩
  refine not_lt.1 fun hlt => ?_
  rw [Memory.find_eq_none_of_lt hc hlt] at ha
  cases ha

/-- Rising lists that list the same bytes are equal: each head is no higher than the other, and the tails list the same
bytes above it. -/
theorem Memory.eq_of_find_eq {m n : Memory} {lo : Nat} (hm : Memory.risingFrom lo m = true)
    (hn : Memory.risingFrom lo n = true) (h : ∀ a, m.find a = n.find a) : m = n := by
  induction m generalizing n lo with
  | nil =>
    cases n with
    | nil => rfl
    | cons d n => simpa [Memory.find] using h d.1
  | cons c m ih =>
    cases n with
    | nil => simpa [Memory.find] using h c.1
    | cons d n =>
      have hc : Memory.find (c :: m) c.1 = some c.2 := if_pos rfl
      have hd : Memory.find (d :: n) d.1 = some d.2 := if_pos rfl
      have haddr : c.1 = d.1 := le_antisymm
        (Memory.head_le_of_find_eq_some hm ((h d.1).trans hd))
        (Memory.head_le_of_find_eq_some hn ((h c.1).symm.trans hc))
      have hbyte : c.2 = d.2 := Option.some.inj (hc.symm.trans ((h c.1).trans (haddr ▸ hd)))
      obtain rfl : c = d := Prod.ext haddr hbyte
      obtain ⟨-, hm⟩ := (Memory.risingFrom_cons lo c m).1 hm
      obtain ⟨-, hn⟩ := (Memory.risingFrom_cons lo c n).1 hn
      refine congrArg (c :: ·) (ih hm hn fun a => ?_)
      by_cases ha : a = c.1
      · rw [Memory.find_eq_none_of_lt hm (by omega), Memory.find_eq_none_of_lt hn (by omega)]
      · simpa [Memory.find_cons, ha] using h a

/-- In a canonical list an address is listed exactly where it does not read as its reset contents. -/
theorem Memory.find_eq_of_wf {font : Vector Byte Config.fontSize} {m : Memory} (hm : Memory.wf font m = true)
    (a : Nat) : m.find a =
      if m.read font a = Memory.unlisted font a then none else some (m.read font a) := by
  obtain ⟨-, hall⟩ := (Memory.wf_iff font m).1 hm
  cases hf : m.find a with
  | none => simp [Memory.read, hf]
  | some v =>
    obtain ⟨-, hv⟩ := hall _ (Memory.mem_of_find_eq_some hf)
    simpa [Memory.read, hf] using hv

/-! ## LD [I], Vx inside memory (R63, R155) -/

/-- LD [I], Vx with its transfer in memory completes: pc moves to the next instruction and V[k] stands at I + k. -/
theorem exec_storeRegs_stores {s : State} {x : Idx} (h : s.i.toNat + x.val < 4096) :
    ∃ t, exec (.storeRegs x) s = .next t ∧ t.pc = s.pc + 2 ∧ t.status = s.status ∧
      ∀ k : Idx, k ≤ x → t.byteAt (s.i.toNat + k.val) = s.getV k := by
  refine ⟨_, (execStoreRegs_eq x s).trans (if_pos h), rfl, rfl, fun k hk => ?_⟩
  have hkx : k.val < x.val + 1 := Nat.lt_succ_of_le hk
  refine (Memory.read_writeMany _ _ _ _ _).trans ((dif_pos (by simpa using hkx)).trans ?_)
  simp [State.getVPrefix_getElem]

end Sys2Proof.Machine
end

section
/-! SUPPORT. The statements of 20_memory.md, settled. -/

namespace Sys2Proof.Proofs

open Sys2Proof Sys2Proof.Machine

/-- Settles O4: the reads of a canonical memory say which addresses are listed, and a rising list is what it lists. -/
theorem canonicalMemoriesThatReadAlikeAreEqual : Obligations.CanonicalMemoriesThatReadAlikeAreEqual := by
  intro font m n hm hn h
  refine Memory.eq_of_find_eq ((Memory.wf_iff font m).1 hm).1 ((Memory.wf_iff font n).1 hn).1 fun a => ?_
  rw [Memory.find_eq_of_wf hm, Memory.find_eq_of_wf hn, h a]

/-- Settles O5: the store puts V0 and V1 at the new pc and the address after it, where the next step fetches. -/
theorem storedCodeIsFetchedNext : Obligations.StoredCodeIsFetchedNext := by
  intro s x hi hx hmem
  obtain ⟨t, hexec, hpc, hstatus, hbytes⟩ := exec_storeRegs_stores hmem
  have hpcI : t.pc.toNat = s.i.toNat := by
    rw [hpc, BitVec.toNat_add, hi]
    exact Nat.mod_eq_of_lt (hi ▸ s.i.isLt)
  have hword : t.fetchWord = .ok (wordOfBytes (s.getV 0) (s.getV 1)) := by
    have hhigh : t.byteAt s.i.toNat = s.getV 0 := hbytes 0 (Fin.zero_le x)
    have hlow : t.byteAt (s.i.toNat + 1) = s.getV 1 := hbytes 1 hx
    rw [t.fetchWord_eq, hpcI, if_pos (by omega), hhigh, hlow]
  exact ⟨t, hexec, hword, fun i hrun hdec =>
    step_of_fetch_instr (hstatus.trans hrun) (State.fetch_eq_instr.2 ⟨hword, hdec⟩)⟩

/-- Settles O48: the footprints that list memory are the transfers of the two stores, and a store that completes has its
transfer below 4096. -/
theorem memoryChangesOnlyByTheTwoStores : Obligations.MemoryChangesOnlyByTheTwoStores := by
  intro s t a h hne
  obtain ⟨c, o, rfl⟩ | ⟨w, i, hf, he, hw⟩ := step_enterFault_or_frame h
  · exact absurd rfl hne
  have hmem : (s.writes i).mem a = true := Bool.of_not_eq_false fun hfalse => hne (hw.mem a hfalse)
  obtain ⟨c, rfl⟩ | hcase := exec_cases he
  · exact absurd rfl hne
  cases i with
  | ldB x =>
    obtain ⟨hbound, -⟩ := hcase
    obtain ⟨hlo, hhi⟩ : s.i.toNat ≤ a ∧ a < s.i.toNat + 3 := by simpa [State.writes] using hmem
    exact .inl ⟨w, x, hf, hlo, by omega, by omega⟩
  | storeRegs x =>
    obtain ⟨hbound, -⟩ := hcase
    obtain ⟨hlo, hhi⟩ : s.i.toNat ≤ a ∧ a < s.i.toNat + (x.val + 1) := by simpa [State.writes] using hmem
    exact .inr ⟨w, x, hf, hlo, by omega, by omega⟩
  | _ => cases hmem

end Sys2Proof.Proofs
end

section
/-! SUPPORT. The decoder and the encoder against each other and against the opcode map: `decode` undoes `encode`,
`encode` undoes `decode` but for the ignored field of the shifts (R92), and `decode` accepts the words that a row matches
(R85, R86, R91). -/

namespace Sys2Proof

/-! ## Decode undoes encode -/

/-- The fields of an encoded word are the operands and selectors it was built from, so `decode` reaches its arm. -/
@[simp] theorem decode_encode (i : Instr) : decode (encode i) = some i := by
  cases i with
  | nop | cls | ret => rfl
  | jp | call | ldI | jpV0 | seImm | sneImm | ldImm | addImm | rnd | drw => simp [encode, decode]
  | seReg | sneReg => simp [encode, decode, whenNZero]
  | ldReg | orReg | andReg | xorReg | addReg | subReg | shr | subnReg | shl => simp [encode, decode, decodeFamily8]
  | skp | sknp => simp [encode, decode, decodeFamilyE]
  | ldVxDt | ldVxK | ldDtVx | ldStVx | addI | ldF | ldB | storeRegs | loadRegs => simp [encode, decode, decodeFamilyF]

/-- Two bytes are consumed, and they decode as the word they form (R64, R80). -/
theorem decodeBytes_eq_ok {high low : Byte} {rest rest' : List Byte} {i : Instr} :
    decodeBytes (high :: low :: rest) = .ok (i, rest') ↔ decode (wordOfBytes high low) = some i ∧ rest = rest' := by
  cases hd : decode (wordOfBytes high low) <;> simp [decodeBytes, hd]

theorem decodeBytes_encodeBytes (i : Instr) (rest : List Byte) :
    decodeBytes (encodeBytes i ++ rest) = .ok (i, rest) :=
  decodeBytes_eq_ok.2 ⟨by rw [wordOfBytes_bytes, decode_encode], rfl⟩

/-! ## A word is built from its fields (R81) -/

theorem wordNnn_of_fields {w : Word} {f : BitVec 4} (hf : fieldFamily w = f) : wordNnn f (fieldNnn w) = w := by
  subst hf
  apply BitVec.eq_of_toNat_eq
  rw [wordNnn_toNat, fieldFamily_toNat, fieldNnn_toNat]
  omega

theorem wordXkk_of_fields {w : Word} {f : BitVec 4} {kk : Byte} (hf : fieldFamily w = f) (hkk : fieldKk w = kk) :
    wordXkk f (fieldX w) kk = w := by
  subst hf hkk
  apply BitVec.eq_of_toNat_eq
  rw [wordXkk_toNat, fieldFamily_toNat, fieldX_val, fieldKk_toNat]
  omega

theorem wordXyn_of_fields {w : Word} {f n : BitVec 4} (hf : fieldFamily w = f) (hn : w.extractLsb' 0 4 = n) :
    wordXyn f (fieldX w) (fieldY w) n.toFin = w := by
  subst hf hn
  show wordXyn _ _ _ (fieldN w) = w
  apply BitVec.eq_of_toNat_eq
  rw [wordXyn_toNat, fieldFamily_toNat, fieldX_val, fieldY_val, fieldN_val]
  omega

/-- The mask that keeps every field but y. -/
theorem and_FF0F (w : Word) : w &&& 0xFF0F#16 = wordXyn (fieldFamily w) (fieldX w) 0 (fieldN w) := by
  apply BitVec.eq_of_getLsbD_eq
  intro i hi
  have e : (wordXyn (fieldFamily w) (fieldX w) 0 (fieldN w)).getLsbD i =
      (fieldFamily w ++ w.extractLsb' 8 4 ++ (0 : BitVec 4) ++ w.extractLsb' 0 4).getLsbD i := rfl
  rw [e, BitVec.getLsbD_append, BitVec.getLsbD_append, BitVec.getLsbD_append, BitVec.getLsbD_and, fieldFamily]
  interval_cases i <;> simp

theorem wordXyn_zero_of_fields {w : Word} {f n : BitVec 4} (hf : fieldFamily w = f) (hn : w.extractLsb' 0 4 = n) :
    wordXyn f (fieldX w) 0 n.toFin = w &&& 0xFF0F#16 := by
  subst hf hn
  exact (and_FF0F w).symm

/-! ## Encode undoes decode, but for the ignored field of the shifts (R92) -/

/-- `w` is the word of `i`, or `i` is a shift and its word is `w` with the ignored y field cleared (log entry 8). -/
def EncodesButForShiftY (i : Instr) (w : Word) : Prop :=
  encode i = w ∨ ∃ x, (i = .shr x ∨ i = .shl x) ∧ encode i = w &&& 0xFF0F

theorem encode_of_decodeFamily0 {w : Word} {i : Instr} (h : decodeFamily0 w = some i) : encode i = w := by
  unfold decodeFamily0 at h
  split_ifs at h with h0 h1 h2 <;> cases h
  · exact h0.symm
  · exact h1.symm
  · exact h2.symm

theorem encodesButForShiftY_of_decodeFamily8 {w : Word} {i : Instr} (hf : fieldFamily w = 0x8#4)
    (h : decodeFamily8 w = some i) : EncodesButForShiftY i w := by
  unfold decodeFamily8 at h
  split at h <;> cases h
  case h_7 hn => exact .inr ⟨_, .inl rfl, wordXyn_zero_of_fields hf hn⟩
  case h_9 hn => exact .inr ⟨_, .inr rfl, wordXyn_zero_of_fields hf hn⟩
  all_goals exact .inl (wordXyn_of_fields hf ‹_›)

theorem encode_of_decodeFamilyE {w : Word} {i : Instr} (hf : fieldFamily w = 0xE#4) (h : decodeFamilyE w = some i) :
    encode i = w := by
  unfold decodeFamilyE at h
  split at h <;> cases h
  all_goals exact wordXkk_of_fields hf ‹_›

theorem encode_of_decodeFamilyF {w : Word} {i : Instr} (hf : fieldFamily w = 0xF#4) (h : decodeFamilyF w = some i) :
    encode i = w := by
  unfold decodeFamilyF at h
  split at h <;> cases h
  all_goals exact wordXkk_of_fields hf ‹_›

theorem whenNZero_eq_some {w : Word} {i j : Instr} : whenNZero w i = some j ↔ w.extractLsb' 0 4 = 0x0#4 ∧ i = j := by
  simp [whenNZero]

/-- The arms of `decode` in order: arm h_k is family k - 1, and each gives back the fields it read. -/
theorem encodesButForShiftY_of_decode {w : Word} {i : Instr} (h : decode w = some i) : EncodesButForShiftY i w := by
  unfold decode at h
  split at h
  case h_1 => exact .inl (encode_of_decodeFamily0 h)
  case h_6 hf | h_10 hf =>
    obtain ⟨hn, rfl⟩ := whenNZero_eq_some.1 h
    exact .inl (wordXyn_of_fields hf hn)
  case h_9 hf => exact encodesButForShiftY_of_decodeFamily8 hf h
  case h_15 hf => exact .inl (encode_of_decodeFamilyE hf h)
  case h_16 hf => exact .inl (encode_of_decodeFamilyF hf h)
  case h_2 hf | h_3 hf | h_11 hf | h_12 hf => cases h; exact .inl (wordNnn_of_fields hf)
  case h_4 hf | h_5 hf | h_7 hf | h_8 hf | h_13 hf => cases h; exact .inl (wordXkk_of_fields hf rfl)
  case h_14 hf => cases h; exact .inl (wordXyn_of_fields hf rfl)
  case h_17 => cases h

/-! ## The words that decode are the legal ones (R85, R91) -/

namespace Laws.RowMatch

/-- Every instruction has a row, and it matches the instruction's word. -/
theorem statement (i : Instr) : Statement i :=
  match i with
  | .nop => nop
  | .cls => cls
  | .ret => ret
  | .jp nnn => jp nnn
  | .call nnn => call nnn
  | .seImm x kk => seImm x kk
  | .sneImm x kk => sneImm x kk
  | .seReg x y => seReg x y
  | .ldImm x kk => ldImm x kk
  | .addImm x kk => addImm x kk
  | .ldReg x y => ldReg x y
  | .orReg x y => orReg x y
  | .andReg x y => andReg x y
  | .xorReg x y => xorReg x y
  | .addReg x y => addReg x y
  | .subReg x y => subReg x y
  | .shr x => shr x
  | .subnReg x y => subnReg x y
  | .shl x => shl x
  | .sneReg x y => sneReg x y
  | .ldI nnn => ldI nnn
  | .jpV0 nnn => jpV0 nnn
  | .rnd x kk => rnd x kk
  | .drw x y n => drw x y n
  | .skp x => skp x
  | .sknp x => sknp x
  | .ldVxDt x => ldVxDt x
  | .ldVxK x => ldVxK x
  | .ldDtVx x => ldDtVx x
  | .ldStVx x => ldStVx x
  | .addI x => addI x
  | .ldF x => ldF x
  | .ldB x => ldB x
  | .storeRegs x => storeRegs x
  | .loadRegs x => loadRegs x

end Laws.RowMatch

theorem legalWord_of_row {w : Word} {r : OpcodeRow} (hr : r ∈ opcodeMap) (hm : r.matchesWord w = true) :
    legalWord w = true := List.any_eq_true.2 ⟨r, hr, hm⟩

theorem legalWord_encode (i : Instr) : legalWord (encode i) = true := by
  obtain ⟨r, hr, hm⟩ := (Option.any_eq_true _ _).1 (Laws.RowMatch.statement i)
  exact legalWord_of_row (List.mem_of_find?_eq_some hr) hm

/-- A row whose mask does not cover y matches a word when it matches the word with y cleared. -/
theorem matchesWord_of_and_FF0F {w : Word} {r : OpcodeRow} (hmask : 0xFF0F#16 &&& r.mask = r.mask)
    (h : r.matchesWord (w &&& 0xFF0F#16) = true) : r.matchesWord w = true := by
  rwa [OpcodeRow.matchesWord, BitVec.and_assoc, hmask] at h

theorem legalWord_of_decode {w : Word} {i : Instr} (h : decode w = some i) : legalWord w = true := by
  obtain rfl | ⟨x, rfl | rfl, he⟩ := encodesButForShiftY_of_decode h
  · exact legalWord_encode i
  · refine legalWord_of_row (r := ⟨"SHR_Vx", 0xF00F, 0x8006⟩) (by decide) (matchesWord_of_and_FF0F rfl ?_)
    exact he ▸ Laws.RowMatch.shr x
  · refine legalWord_of_row (r := ⟨"SHL_Vx", 0xF00F, 0x800E⟩) (by decide) (matchesWord_of_and_FF0F rfl ?_)
    exact he ▸ Laws.RowMatch.shl x

theorem decode_isSome_eq_legalWord (w : Word) : (decode w).isSome = legalWord w := by
  refine Bool.eq_iff_iff.2 ⟨fun h => ?_, decode_isSome_of_legalWord⟩
  obtain ⟨i, hi⟩ := Option.isSome_iff_exists.1 h
  exact legalWord_of_decode hi

theorem decode_eq_none_of_not_legalWord {w : Word} (h : legalWord w = false) : decode w = none := by
  rw [← decode_isSome_eq_legalWord] at h
  simpa using h

/-! ## At most one row matches a word (R96) -/

/-- Two rows clash when their patterns differ on a bit that both masks cover. -/
def OpcodeRow.Clash (p q : OpcodeRow) : Prop := p.pattern &&& q.mask ≠ q.pattern &&& p.mask

theorem OpcodeRow.Clash.not_both_match {p q : OpcodeRow} (h : p.Clash q) {w : Word} (hp : p.matchesWord w = true)
    (hq : q.matchesWord w = true) : False := by
  refine h ?_
  rw [← eq_of_beq hp, ← eq_of_beq hq, BitVec.and_assoc, BitVec.and_assoc, BitVec.and_comm p.mask]

theorem opcodeMap_pairwise_clash : opcodeMap.Pairwise OpcodeRow.Clash := by
  unfold OpcodeRow.Clash
  decide

theorem matching_rows_length_le_one (w : Word) : (opcodeMap.filter (·.matchesWord w)).length ≤ 1 := by
  by_contra hlen
  have hmatch : ∀ r ∈ opcodeMap.filter (·.matchesWord w), r.matchesWord w = true := fun _ => List.of_mem_filter
  have hclash := List.pairwise_iff_getElem.1 (opcodeMap_pairwise_clash.filter (·.matchesWord w))
    0 1 (by omega) (by omega) Nat.zero_lt_one
  exact hclash.not_both_match (hmatch _ (List.getElem_mem _)) (hmatch _ (List.getElem_mem _))

end Sys2Proof
end

section
/-! SUPPORT. The statements of 30_encoding.md, settled. -/

namespace Sys2Proof.Proofs

open Sys2Proof Sys2Proof.Machine

/-- Settles O8: `decode_encode`, and the two bytes of an encoded instruction form its word. -/
theorem decodeOfEncodeIsTheInstruction : Obligations.DecodeOfEncodeIsTheInstruction :=
  fun i rest => ⟨decode_encode i, decodeBytes_encodeBytes i rest⟩

/-- Settles O7: the fields as numbers, the clash of every two rows, and the words that decode. -/
theorem decoderFollowsTheOpcodeMap : Obligations.DecoderFollowsTheOpcodeMap := fun w =>
  ⟨fieldFamily_toNat w, fieldX_val w, fieldY_val w, fieldN_val w, fieldKk_toNat w, fieldNnn_toNat w,
    matching_rows_length_le_one w, decode_isSome_eq_legalWord w⟩

/-- Settles O9: `encodesButForShiftY_of_decode`, and the shifts' arms of `decode` do not read y. -/
theorem onlyTheShiftsIgnoreAField : Obligations.OnlyTheShiftsIgnoreAField := by
  refine ⟨fun _ _ => encodesButForShiftY_of_decode, fun x y => ⟨?_, ?_⟩⟩ <;> simp [decode, decodeFamily8]

/-- Settles O12: an illegal word decodes to nothing, so the fetch raises Unimplemented with it. -/
theorem illegalWordIsUnimplemented : Obligations.IllegalWordIsUnimplemented := by
  refine ⟨fun s w hrun hw hillegal => ?_, fun w hlegal => ?_⟩
  · have hfetch : s.fetch = .fault ⟨.unimplemented, none⟩ (some w) := by
      rw [State.fetch_of_word hw, decode_eq_none_of_not_legalWord hillegal]
    exact step_of_fetch_fault hrun hfetch
  · exact Option.isSome_iff_exists.1 (decode_isSome_of_legalWord hlegal)

/-- Settles O6: the ten words are encodings, and no row matches the other three. -/
theorem decodeKnownWords : Obligations.DecodeKnownWords :=
  ⟨decode_encode .nop, decode_encode .ret, decode_encode (.call 0xABC), decode_encode (.seImm 3 0x42),
    decode_encode (.subReg 1 2), decode_encode (.shl 4), decode_encode (.drw 0 1 2), decode_encode (.sknp 2),
    decode_encode (.ldB 3), decode_encode (.loadRegs 2), decode_eq_none_of_not_legalWord (by decide),
    decode_eq_none_of_not_legalWord (by decide), decode_eq_none_of_not_legalWord (by decide)⟩

/-- Settles O10: the two bytes at pc are the fetched word, and `decodeBytes` decodes that word. -/
theorem stepRunsTheDecodedInstruction : Obligations.StepRunsTheDecodedInstruction := by
  intro s i rest hrun hpc hdec
  have hword := s.fetchWord_eq.trans (if_pos hpc)
  exact step_of_fetch_instr hrun (State.fetch_eq_instr.2 ⟨hword, (decodeBytes_eq_ok.1 hdec).1⟩)

/-- Settles O11: the fetch leaves memory, and its fault is entered with no word. -/
theorem fetchOutsideMemoryFaults : Obligations.FetchOutsideMemoryFaults := by
  intro s hrun hpc
  have hword : s.fetchWord = .error (.memory (max s.pc.toNat 4096)) := s.fetchWord_eq.trans (if_neg (by omega))
  exact step_of_fetch_fault hrun (State.fetch_of_error hword)

end Sys2Proof.Proofs
end

section
/-! SUPPORT. Rules of control flow: the word of an instruction without operands, and what a jump, a skip, RET and CALL
answer, the fetch's advance included (R102 to R110). -/

namespace Sys2Proof.Machine

/-- A row whose mask covers the whole word encodes one instruction (R87). -/
theorem Encodes.of_wholeWord (i : Instr) : Encodes 0xFFFF (encode i) (fun _ => i) := by
  intro w hw
  obtain rfl : w = encode i := (and_FFFF w).symm.trans hw
  exact decode_encode i

/-! ## Jumps (R103, R110) -/

/-- The sum of an address and a byte does not wrap (R110). -/
theorem zextNnn_add_zextByte_toNat (nnn : BitVec 12) (b : Byte) :
    (zextNnn nnn + zextByte b).toNat = nnn.toNat + b.toNat := by
  have hnnn := nnn.isLt
  have hb := b.isLt
  rw [BitVec.toNat_add, zextNnn_toNat, zextByte_toNat]
  omega

theorem Frame.of_jump (s : State) (target : Word) : Frame s (s.advance.jumpTo target) {} :=
  ((WfFrame.refl s).advance.jumpTo target).toFrame

/-! ## Skips (R105) -/

/-- An instruction that ends in a skip: 4 bytes on where its condition holds, 2 where it fails, and nothing else. -/
theorem exec_skips {i : Instr} {s : State} {b : Bool} {p q : Prop} (he : exec i s = .next (s.advance.skipIf b))
    (hp : p → b = true) (hq : q → b = false) :
    ∃ t, exec i s = .next t ∧ (p → t.pc = s.pc + 4) ∧ (q → t.pc = s.pc + 2) ∧ Frame s t {} := by
  refine ⟨_, he, fun h => ?_, fun h => ?_, ((WfFrame.refl s).advance.skipIf b).toFrame⟩
  · rw [hp h]; exact s.skip_advance_pc
  · rw [hq h]; rfl

/-! ## The call stack (R102, R104) -/

/-- RET with entry `j` on top: pc takes the entry, and `j` entries stay in use. -/
theorem exec_ret_of_sp {s : State} {j : Idx} (hj : s.sp.val = j.val + 1) :
    exec .ret s = .next { s with sp := j.castSucc, pc := s.stack[j] } := by
  refine (execRet_eq s).trans ((dif_neg (by omega)).trans ?_)
  simp only [hj, Nat.add_sub_cancel]
  rfl

theorem exec_ret_of_empty {s : State} (h : s.sp.val = 0) :
    exec .ret s = .next (FaultAt s .stackUnderflow 0x00EE none) := (execRet_eq s).trans (dif_pos h)

/-- CALL with `j` entries in use: entry `j` takes the address after the CALL. -/
theorem exec_call_of_sp {s : State} {j : Idx} (nnn : BitVec 12) (hj : s.sp.val = j.val) :
    exec (.call nnn) s =
      .next { s with stack := s.stack.set j (s.pc + 2), sp := j.succ, pc := zextNnn nnn } := by
  refine (execCall_eq nnn s).trans ((dif_pos (by omega)).trans ?_)
  simp only [hj]
  rfl

theorem exec_call_of_full {s : State} (nnn : BitVec 12) (h : s.sp.val = 16) :
    exec (.call nnn) s = .next (FaultAt s .stackOverflow (wordNnn 0x2 nnn) none) :=
  (execCall_eq nnn s).trans (dif_neg (by omega))

/-- A pop writes sp alone: the entry keeps its value. -/
theorem Frame.of_pop (s : State) (p : Fin 17) (target : Word) :
    Frame s { s with sp := p, pc := target } { sp := true } :=
  (((WfFrame.refl s).setSp p).jumpTo target).toFrame

theorem Frame.of_push (s : State) (j : Idx) (a target : Word) (p : Fin 17) :
    Frame s { s with stack := s.stack.set j a, sp := p, pc := target }
      { stackSlot := fun k => k == j, sp := true } :=
  have h := (((WfFrame.refl s).setStackSlot j.val j.isLt a).setSp p).jumpTo target
  { h.toFrame with stackSlot := fun k hk => h.stackSlot k (by simpa [Fin.ext_iff] using hk) }

end Sys2Proof.Machine
end

section
/-! SUPPORT. The statements of 40_flow.md, settled. -/

namespace Sys2Proof.Proofs

open Sys2Proof Sys2Proof.Machine

/-- Settles O13: NOP is the fetch's advance. -/
theorem nopOnlyAdvances : Obligations.NopOnlyAdvances := by
  refine ⟨Encodes.of_wholeWord .nop, fun s => ?_⟩
  exact ⟨s.advance, rfl, rfl, (WfFrame.refl s).advance.toFrame⟩

/-- Settles O14: `exec_ret_of_sp` with an entry in use, `exec_ret_of_empty` with none. -/
theorem retPopsOrUnderflows : Obligations.RetPopsOrUnderflows := by
  refine ⟨Encodes.of_wholeWord .ret, fun s => ⟨fun j hj => ?_, exec_ret_of_empty⟩⟩
  exact ⟨_, exec_ret_of_sp hj, rfl, rfl, Frame.of_pop s _ _⟩

/-- Settles O15: both are jumps, and the sum of JP V0 is at most 0xFFF + 0xFF. -/
theorem jumpsReplacePc : Obligations.JumpsReplacePc := by
  refine ⟨fun w hw => ?_, fun w hw => ?_, fun s nnn => ⟨?_, ?_⟩⟩
  · simp [decode, family_of_mask hw rfl]
  · simp [decode, family_of_mask hw rfl]
  · exact ⟨_, rfl, zextNnn_toNat nnn, Frame.of_jump s _⟩
  · have hsum := zextNnn_add_zextByte_toNat nnn (s.getV 0)
    have hbound : (zextNnn nnn + zextByte (s.getV 0)).toNat ≤ 0x10FE := by
      have hnnn := nnn.isLt
      have hv := (s.getV 0).isLt
      omega
    exact ⟨_, rfl, hsum, hbound, Frame.of_jump s _⟩

/-- Settles O16: `exec_call_of_sp` with room on the stack, `exec_call_of_full` with none. -/
theorem callPushesOrOverflows : Obligations.CallPushesOrOverflows := by
  refine ⟨fun w hw => ?_, fun s nnn => ⟨fun j hj => ?_, exec_call_of_full nnn⟩⟩
  · simp [decode, family_of_mask hw rfl]
  · exact ⟨_, exec_call_of_sp nnn hj, Vector.getElem_set_self j.isLt, rfl, zextNnn_toNat nnn,
      Frame.of_push s j _ _ _⟩

/-- Settles O17: both end in a skip, on V[x] = kk and on its negation. -/
theorem skipsOnAnImmediate : Obligations.SkipsOnAnImmediate := by
  refine ⟨fun w hw => ?_, fun w hw => ?_, fun s x kk => ⟨?_, ?_⟩⟩
  · simp [decode, family_of_mask hw rfl]
  · simp [decode, family_of_mask hw rfl]
  · exact exec_skips rfl beq_iff_eq.2 beq_eq_false_iff_ne.2
  · exact exec_skips rfl bne_iff_ne.2 bne_eq_false_iff_eq.2

/-- Settles O18: both end in a skip, on V[x] = V[y] and on its negation. -/
theorem skipsOnTwoRegisters : Obligations.SkipsOnTwoRegisters := by
  refine ⟨fun w hw => ?_, fun w hw => ?_, fun s x y => ⟨?_, ?_⟩⟩
  · simp [decode, whenNZero, family_of_mask hw rfl, selector_of_mask hw rfl]
  · simp [decode, whenNZero, family_of_mask hw rfl, selector_of_mask hw rfl]
  · exact exec_skips rfl beq_iff_eq.2 beq_eq_false_iff_ne.2
  · exact exec_skips rfl bne_iff_ne.2 bne_eq_false_iff_eq.2

/-- Settles O19: the entry that RET pops is the one that CALL pushed. -/
theorem retReturnsToAfterTheCall : Obligations.RetReturnsToAfterTheCall := by
  intro s t u nnn hsp hcall hstack hspu
  obtain ⟨j, hj⟩ : ∃ j : Idx, s.sp.val = j.val := ⟨⟨s.sp.val, hsp⟩, rfl⟩
  cases (exec_call_of_sp nnn hj).symm.trans hcall
  have hentry : u.stack[j] = s.pc + 2 := by
    rw [hstack]
    exact Vector.getElem_set_self j.isLt
  exact ⟨_, exec_ret_of_sp (congrArg Fin.val hspu), hentry, Fin.ext hj.symm⟩

end Sys2Proof.Proofs
end

section
/-! SUPPORT. Rules of the register loads and the ALU: the words of the formats F-XKK and F-XYN, and what an instruction
that ends in a register write, in a result and a flag, or in a random byte leaves (R120 to R141). -/

namespace Sys2Proof.Machine

/-! ## The words of the formats F-XKK and F-XYN (R81, R86) -/

/-- A row that fixes the family alone: its words are those that the format F-XKK builds from their own fields. -/
theorem Encodes.of_xkk (f : BitVec 4) {g : Word → Instr}
    (hg : ∀ w, decode (wordXkk f (fieldX w) (fieldKk w)) = some (g w)) : Encodes 0xF000 (wordNnn f 0) g := by
  intro w hw
  have hf : fieldFamily w = f := (family_of_mask hw rfl).trans (fieldFamily_wordNnn f 0)
  exact (congrArg decode (wordXkk_of_fields hf rfl)).symm.trans (hg w)

/-- A row that fixes the family and n: its words are those that the format F-XYN builds from their own x and y. -/
theorem Encodes.of_xyn (f : BitVec 4) (n : Idx) {g : Word → Instr}
    (hg : ∀ w, decode (wordXyn f (fieldX w) (fieldY w) n) = some (g w)) : Encodes 0xF00F (wordXyn f 0 0 n) g := by
  intro w hw
  have hf : fieldFamily w = f := (family_of_mask hw rfl).trans (fieldFamily_wordXyn f 0 0 n)
  have hn : w.extractLsb' 0 4 = BitVec.ofFin n := (selector_of_mask hw rfl).trans (selector_wordXyn f 0 0 n)
  exact (congrArg decode (wordXyn_of_fields hf hn)).symm.trans (hg w)

/-! ## One register written (R121 to R128) -/

theorem State.setV_getV_same (s : State) (x : Idx) (b : Byte) : (s.setV x b).getV x = b :=
  (s.setV_getV x x b).trans (if_pos rfl)

/-- An instruction that ends in one register write, with what its result satisfies. -/
theorem exec_writes_register (R : Byte → Prop) {i : Instr} {s : State} {x : Idx} {b : Byte}
    (he : exec i s = .next (s.advance.setV x b)) (hb : R b) :
    ∃ t, exec i s = .next t ∧ R (t.getV x) ∧ t.pc = s.pc + 2 ∧ Frame s t { regs := fun k => k == x } :=
  ⟨_, he, (s.advance.setV_getV_same x b).symm ▸ hb, rfl, ((WfFrame.refl s).advance.setV x b).toFrame⟩

/-! ## The result and then the flag (R123, R129 to R133) -/

/-- The flag comes last, so VF holds it even as the destination. -/
theorem State.setResultAndFlag_getV_vf (s : State) (x : Idx) (b : Byte) (c : Bool) :
    (s.setResultAndFlag x b c).getV 15 = flagByte c := (s.setResultAndFlag_getV x 15 b c).trans (if_pos rfl)

theorem State.setResultAndFlag_getV_dest (s : State) {x : Idx} (hx : x ≠ 15) (b : Byte) (c : Bool) :
    (s.setResultAndFlag x b c).getV x = b :=
  (s.setResultAndFlag_getV x x b c).trans ((if_neg hx).trans (if_pos rfl))

/-- An instruction that ends in a result and a flag, with what the two bytes satisfy. -/
theorem exec_writes_result_and_flag (R F : Byte → Prop) {i : Instr} {s : State} {x : Idx} {b : Byte}
    {c : Bool} (he : exec i s = .next (s.advance.setResultAndFlag x b c)) (hb : R b) (hc : F (flagByte c)) :
    ∃ t, exec i s = .next t ∧ (x ≠ 15 → R (t.getV x)) ∧ F (t.getV 15) ∧ t.pc = s.pc + 2 ∧
      Frame s t { regs := fun k => k == x || k == 15 } := by
  refine ⟨_, he, fun hx => ?_, ?_, rfl, (((WfFrame.refl s).advance.setV x b).setFlag c).toFrame⟩
  · rwa [State.setResultAndFlag_getV_dest _ hx]
  · rwa [State.setResultAndFlag_getV_vf]

/-- Where the flag is a condition, VF ends as 1 where it holds and as 0 where it fails (R124). -/
theorem exec_writes_result_and_condition (R : Byte → Prop) {i : Instr} {s : State} {x : Idx} {b : Byte} {c : Bool}
    {p q : Prop} (he : exec i s = .next (s.advance.setResultAndFlag x b c)) (hb : R b) (hp : p → c = true)
    (hq : q → c = false) :
    ∃ t, exec i s = .next t ∧ (x ≠ 15 → R (t.getV x)) ∧ (p → t.getV 15 = 1) ∧ (q → t.getV 15 = 0) ∧
      t.pc = s.pc + 2 ∧ Frame s t { regs := fun k => k == x || k == 15 } := by
  obtain ⟨t, ht, hresult, hflag, hrest⟩ := exec_writes_result_and_flag R (· = flagByte c) he hb rfl
  exact ⟨t, ht, hresult, fun h => hflag.trans (congrArg flagByte (hp h)),
    fun h => hflag.trans (congrArg flagByte (hq h)), hrest⟩

/-! ## The results and the flags as numbers (R124, R129 to R133) -/

theorem carry_eq_false_iff (a b : Byte) : carry a b = false ↔ a.toNat + b.toNat < 256 :=
  decide_eq_false_iff_not.trans Nat.not_le

theorem noBorrow_eq_false_iff (a b : Byte) : noBorrow a b = false ↔ a.toNat < b.toNat :=
  decide_eq_false_iff_not.trans Nat.not_le

/-- A difference of bytes is the integers' difference modulo 256, whether or not it borrows. -/
theorem sub_toNat_eq_emod (a b : Byte) : ((a - b).toNat : Int) = (a.toNat - b.toNat : Int) % 256 := by
  have ha := a.isLt
  have hb := b.isLt
  rw [BitVec.toNat_sub]
  omega

theorem shiftRight_one_toNat (a : Byte) : (a >>> 1).toNat = a.toNat / 2 := by
  rw [BitVec.toNat_ushiftRight, Nat.shiftRight_one]

theorem shiftLeft_one_toNat (a : Byte) : (a <<< 1).toNat = 2 * a.toNat % 256 := by
  rw [BitVec.toNat_shiftLeft, Nat.shiftLeft_eq, Nat.mul_comm]

/-- The bit that SHR shifts out is the remainder of the halving. -/
theorem flagByte_shiftedOutRight_toNat (a : Byte) : (flagByte (shiftedOutRight a)).toNat = a.toNat % 2 := by
  have hbit := shiftedOutRight_iff a
  cases h : shiftedOutRight a with
  | true => exact (hbit.1 h).symm
  | false =>
    have hne : a.toNat % 2 ≠ 1 := fun hodd => Bool.eq_false_iff.1 h (hbit.2 hodd)
    exact (Nat.mod_two_ne_one.1 hne).symm

/-- The bit that SHL shifts out is the quotient of the byte by 128. -/
theorem flagByte_shiftedOutLeft_toNat (a : Byte) : (flagByte (shiftedOutLeft a)).toNat = a.toNat / 128 := by
  have hbit := shiftedOutLeft_iff a
  cases h : shiftedOutLeft a with
  | true =>
    have hge : 128 ≤ a.toNat := hbit.1 h
    have hlt := a.isLt
    show 1 = a.toNat / 128
    omega
  | false =>
    have hlt : ¬128 ≤ a.toNat := fun hge => Bool.eq_false_iff.1 h (hbit.2 hge)
    exact (Nat.div_eq_of_lt (Nat.not_le.1 hlt)).symm

/-! ## The random byte (R141) -/

/-- Every bit of the result is that of the random byte and of the mask. -/
theorem State.random_getV_bit (s : State) (r : Byte) (x : Idx) (kk : Byte) (b : Nat) :
    ((s.random r x kk).getV x).getLsbD b = (r.getLsbD b && kk.getLsbD b) := by
  rw [State.random_getV, if_pos rfl, BitVec.getLsbD_and]

theorem Frame.of_random (s : State) (r : Byte) (x : Idx) (kk : Byte) :
    Frame s (s.random r x kk) { regs := fun k => k == x, draws := true } :=
  (((WfFrame.refl s).advance.setV x (r &&& kk)).setDraws (s.draws + 1)).toFrame

end Sys2Proof.Machine
end

section
/-! SUPPORT. The statements of 41_alu.md, settled. -/

namespace Sys2Proof.Proofs

open Sys2Proof Sys2Proof.Machine

/-- Settles O20: each ends in one register write, of kk, of the sum and of V[y]. -/
theorem loadsAndImmediateAdd : Obligations.LoadsAndImmediateAdd := by
  refine ⟨Encodes.of_xkk 0x6 fun w => decode_encode (.ldImm (fieldX w) (fieldKk w)),
    Encodes.of_xkk 0x7 fun w => decode_encode (.addImm (fieldX w) (fieldKk w)),
    Encodes.of_xyn 0x8 0x0 fun w => decode_encode (.ldReg (fieldX w) (fieldY w)), fun s x y kk => ⟨?_, ?_, ?_⟩⟩
  · exact exec_writes_register (· = kk) rfl rfl
  · exact exec_writes_register (·.toNat = _) rfl (BitVec.toNat_add _ _)
  · exact exec_writes_register (· = s.getV y) rfl rfl

/-- Settles O21: each ends in one register write, and the operation on bytes is the one on their bits. -/
theorem logicOperations : Obligations.LogicOperations := by
  refine ⟨Encodes.of_xyn 0x8 0x1 fun w => decode_encode (.orReg (fieldX w) (fieldY w)),
    Encodes.of_xyn 0x8 0x2 fun w => decode_encode (.andReg (fieldX w) (fieldY w)),
    Encodes.of_xyn 0x8 0x3 fun w => decode_encode (.xorReg (fieldX w) (fieldY w)), fun s x y => ⟨?_, ?_, ?_⟩⟩
  · exact exec_writes_register (fun v => ∀ b < 8, v.getLsbD b = ((s.getV x).getLsbD b || (s.getV y).getLsbD b)) rfl
      fun _ _ => BitVec.getLsbD_or
  · exact exec_writes_register (fun v => ∀ b < 8, v.getLsbD b = ((s.getV x).getLsbD b && (s.getV y).getLsbD b)) rfl
      fun _ _ => BitVec.getLsbD_and
  · exact exec_writes_register (fun v => ∀ b < 8, v.getLsbD b = ((s.getV x).getLsbD b ^^ (s.getV y).getLsbD b)) rfl
      fun _ _ => BitVec.getLsbD_xor

/-- Settles O22: the result is the sum and the condition is `carry`. -/
theorem addWithCarry : Obligations.AddWithCarry := by
  refine ⟨Encodes.of_xyn 0x8 0x4 fun w => decode_encode (.addReg (fieldX w) (fieldY w)), fun s x y => ?_⟩
  exact exec_writes_result_and_condition (·.toNat = _) rfl (BitVec.toNat_add _ _) (carry_iff _ _).2
    (carry_eq_false_iff _ _).2

/-- Settles O23: the result is a difference and the condition is `noBorrow`, with the operands in either order. -/
theorem subtractWithInvertedBorrow : Obligations.SubtractWithInvertedBorrow := by
  refine ⟨Encodes.of_xyn 0x8 0x5 fun w => decode_encode (.subReg (fieldX w) (fieldY w)),
    Encodes.of_xyn 0x8 0x7 fun w => decode_encode (.subnReg (fieldX w) (fieldY w)), fun s x y => ⟨?_, ?_⟩⟩
  · exact exec_writes_result_and_condition (fun v => (v.toNat : Int) = _) rfl (sub_toNat_eq_emod _ _)
      (noBorrow_iff _ _).2 (noBorrow_eq_false_iff _ _).2
  · exact exec_writes_result_and_condition (fun v => (v.toNat : Int) = _) rfl (sub_toNat_eq_emod _ _)
      (noBorrow_iff _ _).2 (noBorrow_eq_false_iff _ _).2

/-- Settles O24: the decoder ignores the y field of the shifts (O9), and the flag is the bit shifted out. -/
theorem shiftsReportTheBitShiftedOut : Obligations.ShiftsReportTheBitShiftedOut := by
  have hdecode := onlyTheShiftsIgnoreAField.2
  refine ⟨Encodes.of_xyn 0x8 0x6 fun w => (hdecode (fieldX w) (fieldY w)).1,
    Encodes.of_xyn 0x8 0xE fun w => (hdecode (fieldX w) (fieldY w)).2, fun s x => ⟨?_, ?_⟩⟩
  · exact exec_writes_result_and_flag (·.toNat = _) (·.toNat = _) rfl (shiftRight_one_toNat _)
      (flagByte_shiftedOutRight_toNat _)
  · exact exec_writes_result_and_flag (·.toNat = _) (·.toNat = _) rfl (shiftLeft_one_toNat _)
      (flagByte_shiftedOutLeft_toNat _)

/-- Settles O25: both ways the step ends in `State.random`, with the free byte or with the given one. -/
theorem randomByteIsMasked : Obligations.RandomByteIsMasked := by
  refine ⟨Encodes.of_xkk 0xC fun w => decode_encode (.rnd (fieldX w) (fieldKk w)), fun s x kk => ?_,
    fun r s w x kk hrun hfetch => ?_⟩
  · exact ⟨_, rfl, fun b _ => s.random_getV_bit _ x kk b, rfl, rfl, Frame.of_random s _ x kk⟩
  · exact ⟨_, stepWith_of_rnd r hrun hfetch, fun b _ => s.random_getV_bit r x kk b, rfl, Frame.of_random s r x kk⟩

end Sys2Proof.Proofs
end

section
/-! SUPPORT. Rules of the address register and of the memory transfers: the words of the format F-X, the frame of an
instruction that goes on to the next one, and what a write of I, a store and a load leave (R150 to R156). -/

namespace Sys2Proof.Machine

/-! ## The words of the format F-X (R81, R86) -/

/-- A row that fixes the family and the low byte: its words are those that the format F-X builds from their own x. -/
theorem Encodes.of_x (f : BitVec 4) (kk : Byte) {g : Word → Instr}
    (hg : ∀ w, decode (wordXkk f (fieldX w) kk) = some (g w)) : Encodes 0xF0FF (wordXkk f 0 kk) g := by
  intro w hw
  have hf : fieldFamily w = f := (family_of_mask hw rfl).trans (fieldFamily_wordXkk f 0 kk)
  have hkk : fieldKk w = kk := (kk_of_mask hw rfl).trans (fieldKk_wordXkk f 0 kk)
  exact (congrArg decode (wordXkk_of_fields hf hkk)).symm.trans (hg w)

/-! ## The frame of an instruction that goes on to the next one -/

/-- An instruction that moves pc on by 2 has raised no fault, which would keep pc (R205), so it wrote its footprint
alone. -/
theorem Frame.of_exec {i : Instr} {s t : State} (he : exec i s = .next t) (hpc : t.pc = s.pc + 2) :
    Frame s t (s.writes i) := by
  obtain ⟨c, rfl⟩ | hframe := exec_enterFault_or_frame he
  · have hself : s.pc = s.pc + 2 := hpc
    exact absurd (BitVec.self_eq_add_right.1 hself) (by decide)
  · exact hframe.toFrame

/-! ## The address register written (R151 to R153) -/

/-- An instruction that ends in a write of I, with the number it writes. -/
theorem exec_writes_index {i : Instr} {s : State} {a : Word} {n : Nat} (he : exec i s = .next (s.advance.setI a))
    (ha : a.toNat = n) :
    ∃ t, exec i s = .next t ∧ t.i.toNat = n ∧ t.pc = s.pc + 2 ∧ Frame s t { index := true } :=
  ⟨_, he, ha, rfl, ((WfFrame.refl s).advance.setI a).toFrame⟩

/-- ADD I, Vx wraps at 16 bits (R152). -/
theorem add_zextByte_toNat (a : Word) (b : Byte) : (a + zextByte b).toNat = (a.toNat + b.toNat) % 65536 := by
  rw [BitVec.toNat_add, zextByte_toNat]

/-! ## Transfers inside memory (R154, R156) -/

/-- The k-th byte of a run written at `base` is read back at `base + k`. -/
theorem Memory.read_writeMany_add (font : Vector Byte Config.fontSize) (m : Memory) (base : Nat) (bs : List Byte)
    {k : Nat} (hk : k < bs.length) : (Memory.writeMany font m base bs).read font (base + k) = bs[k] := by
  rw [Memory.read_writeMany, dif_pos (by omega)]
  simp only [Nat.add_sub_cancel_left]

/-- The digits are bytes already: no digit is cut (R154). -/
theorem bcdDigits_getElem_toNat (b : Byte) :
    (bcdDigits b)[0].toNat = b.toNat / 100 ∧ (bcdDigits b)[1].toNat = b.toNat / 10 % 10 ∧
      (bcdDigits b)[2].toNat = b.toNat % 10 := by
  have hb := b.isLt
  simp only [bcdDigits, List.getElem_cons_zero, List.getElem_cons_succ, BitVec.toNat_ofNat]
  omega

/-- LD B, Vx with its transfer in memory completes: the k-th digit stands at I + k. -/
theorem exec_ldB_stores {s : State} (x : Idx) (h : s.i.toNat + 2 < 4096) :
    ∃ t, exec (.ldB x) s = .next t ∧ t.pc = s.pc + 2 ∧
      ∀ k : Fin 3, t.byteAt (s.transferAddr k.val) = (bcdDigits (s.getV x))[k.val]'k.isLt :=
  ⟨_, (execLdB_eq x s).trans (if_pos h), rfl, fun k => Memory.read_writeMany_add _ _ _ _ k.isLt⟩

/-- LD Vx, [I] with its transfer in memory completes: V[k] takes the byte at I + k. -/
theorem exec_loadRegs_loads {s : State} {x : Idx} (h : s.i.toNat + x.val < 4096) :
    ∃ t, exec (.loadRegs x) s = .next t ∧ t.pc = s.pc + 2 ∧
      ∀ k : Idx, k ≤ x → t.getV k = s.byteAt (s.transferAddr k.val) := by
  refine ⟨_, (execLoadRegs_eq x s).trans (if_pos h), rfl, fun k hk => ?_⟩
  have hkx : k.val < x.val + 1 := Nat.lt_succ_of_le hk
  rw [State.setVPrefix_getV, List.getD_eq_getElem _ _ (by simpa using hkx), List.getElem_map, List.getElem_range]
  rfl

end Sys2Proof.Machine
end

section
/-! SUPPORT. The statements of 42_index_memory.md, settled. -/

namespace Sys2Proof.Proofs

open Sys2Proof Sys2Proof.Machine

/-- Settles O27: each ends in one write of I, of nnn, of the wrapped sum and of the glyph's address. -/
theorem addressRegisterWrites : Obligations.AddressRegisterWrites := by
  refine ⟨fun w hw => ?_, Encodes.of_x 0xF 0x1E fun w => decode_encode (.addI (fieldX w)),
    Encodes.of_x 0xF 0x29 fun w => decode_encode (.ldF (fieldX w)), fun s x nnn => ⟨?_, ?_, ?_⟩⟩
  · simp [decode, family_of_mask hw rfl]
  · exact exec_writes_index rfl (zextNnn_toNat nnn)
  · exact exec_writes_index rfl (add_zextByte_toNat s.i (s.getV x))
  · exact exec_writes_index rfl (glyphAddr_toNat (s.getV x))

/-- Settles O28: the store in memory leaves the digits in its footprint, and past 4095 `execLdB_eq` is the fault. -/
theorem decimalDigitsAreStored : Obligations.DecimalDigitsAreStored := by
  refine ⟨Encodes.of_x 0xF 0x33 fun w => decode_encode (.ldB (fieldX w)), fun s x => ⟨fun h => ?_, fun h => ?_⟩⟩
  · obtain ⟨t, he, hpc, hbytes⟩ := exec_ldB_stores x h
    obtain ⟨hhundreds, htens, hones⟩ := bcdDigits_getElem_toNat (s.getV x)
    exact ⟨t, he, (congrArg BitVec.toNat (hbytes 0)).trans hhundreds,
      (congrArg BitVec.toNat (hbytes 1)).trans htens,
      (congrArg BitVec.toNat (hbytes 2)).trans hones, hpc, Frame.of_exec he hpc⟩
  · exact (execLdB_eq x s).trans (if_neg (by omega))

/-- Settles O29: the store in memory leaves the registers in its footprint, and past 4095 `execStoreRegs_eq` is the
fault. -/
theorem registersAreStored : Obligations.RegistersAreStored := by
  refine ⟨Encodes.of_x 0xF 0x55 fun w => decode_encode (.storeRegs (fieldX w)),
    fun s x => ⟨fun h => ?_, fun h => ?_⟩⟩
  · obtain ⟨t, he, hpc, -, hbytes⟩ := exec_storeRegs_stores h
    exact ⟨t, he, hbytes, hpc, Frame.of_exec he hpc⟩
  · exact (execStoreRegs_eq x s).trans (if_neg (by omega))

/-- Settles O30: the load in memory fills its footprint, and past 4095 `execLoadRegs_eq` is the fault. -/
theorem registersAreLoaded : Obligations.RegistersAreLoaded := by
  refine ⟨Encodes.of_x 0xF 0x65 fun w => decode_encode (.loadRegs (fieldX w)),
    fun s x => ⟨fun h => ?_, fun h => ?_⟩⟩
  · obtain ⟨t, he, hpc, hregs⟩ := exec_loadRegs_loads h
    exact ⟨t, he, hregs, hpc, Frame.of_exec he hpc⟩
  · exact (execLoadRegs_eq x s).trans (if_neg (by omega))

/-- Settles O31: the store keeps I (O29), so the load (O30) reads the bytes the store left. -/
theorem storeThenLoadRestoresRegisters : Obligations.StoreThenLoadRestoresRegisters := by
  intro s t u x hbound hstore hmem hi
  obtain ⟨t', hstore', hbytes, -, hframe⟩ := (registersAreStored.2 s x).1 (by omega)
  cases hstore'.symm.trans hstore
  have hui : u.i = s.i := hi.trans (hframe.index rfl)
  obtain ⟨v, hload, hregs, -⟩ := (registersAreLoaded.2 u x).1 (by rw [hui]; omega)
  refine ⟨v, hload, fun k hk => ?_⟩
  calc v.getV k = u.byteAt (u.transferAddr k.val) := hregs k hk
    _ = u.byteAt (s.transferAddr k.val) := by rw [State.transferAddr, State.transferAddr, hui]
    _ = t.byteAt (s.transferAddr k.val) := hmem _
    _ = s.getV k := hbytes k hk

end Sys2Proof.Proofs
end

section
/-! SUPPORT. Rules of the sprite draw: the bytes DRW reads, the cells they cover, and what a draw leaves in the display
and in VF (R172, R173). -/

namespace Sys2Proof.Machine

/-! ## The sprite and the cells it covers (R172) -/

/-- The bytes of an n-row sprite, those at I, I + 1, …, as DRW reads them (R172). -/
def State.spriteBytes (s : State) (n : Nat) : List Byte := (List.range n).map fun k => s.byteAt (s.i.toNat + k)

@[simp] theorem State.spriteBytes_length (s : State) (n : Nat) : (s.spriteBytes n).length = n := by
  simp [State.spriteBytes]

@[simp] theorem State.spriteBytes_getElem (s : State) (n k : Nat) (h : k < (s.spriteBytes n).length) :
    (s.spriteBytes n)[k] = s.byteAt (s.i.toNat + k) := by
  simp [State.spriteBytes]

/-- DRW with its sprite in memory completes: it draws the bytes it reads. -/
theorem exec_drw_of_fits {s : State} {n : Idx} (x y : Idx) (h : n.val = 0 ∨ s.i.toNat + n.val ≤ 4096) :
    exec (.drw x y n) s = .next (s.advance.draw x y (s.spriteBytes n.val)) := (execDrw_eq x y n s).trans (if_pos h)

/-- The eight columns of a sprite byte, with the wrapped column as a number. -/
theorem columnHit_iff (cx b : Byte) (c : Fin 64) :
    ColumnHit cx b 0 8 c ↔ ∃ col < 8, b.getLsbD (7 - col) = true ∧ (cx.toNat + col) % 64 = c.val := by
  simp [ColumnHit, spriteBit, wrapColumn, Fin.ext_iff]

/-- The cells that the bytes DRW reads hit are those that its sprite covers. -/
theorem spriteHit_iff_spriteCovers (s : State) (x y n : Idx) (c : Fin 64) (r : Fin 32) :
    SpriteHit (s.getV x) (s.getV y) 0 (s.spriteBytes n.val) c r ↔ SpriteCovers s x y n c r := by
  simp only [SpriteHit, SpriteCovers, State.spriteBytes_length, State.spriteBytes_getElem, columnHit_iff, wrapRow,
    Fin.ext_iff, Nat.zero_add]
  constructor
  · rintro ⟨row, hrow, hr, col, hcol, hbit, hc⟩
    exact ⟨row, col, hrow, hcol, hbit, hc, hr⟩
  · rintro ⟨row, col, hrow, hcol, hbit, hc, hr⟩
    exact ⟨row, hrow, hr, col, hcol, hbit, hc⟩

/-- Covering depends on I, the two coordinates and the sprite's bytes alone. -/
theorem SpriteCovers.of_same_sprite {s u : State} {x y n : Idx} {c : Fin 64} {r : Fin 32} (hi : u.i = s.i)
    (hx : u.getV x = s.getV x) (hy : u.getV y = s.getV y)
    (hbytes : ∀ row < n.val, u.byteAt (s.i.toNat + row) = s.byteAt (s.i.toNat + row)) :
    SpriteCovers u x y n c r ↔ SpriteCovers s x y n c r := by
  refine exists_congr fun row => exists_congr fun col => and_congr_right fun hrow => ?_
  rw [hi, hx, hy, hbytes row hrow]

/-! ## What a draw leaves (R172) -/

/-- What a draw of the sprite of Dxyn in `s` leaves in `t`: the covered cells toggled and the others kept, and in VF the
collision (R172). -/
structure DrawsSprite (s t : State) (x y n : Idx) : Prop where
  toggled : ∀ c r, SpriteCovers s x y n c r → t.cell c r = !s.cell c r
  kept : ∀ c r, ¬SpriteCovers s x y n c r → t.cell c r = s.cell c r
  collision : (∃ c r, SpriteCovers s x y n c r ∧ s.cell c r = true) → t.getV 15 = 1
  noCollision : (∀ c r, SpriteCovers s x y n c r → s.cell c r = false) → t.getV 15 = 0

/-- The draw of DRW, the fetch's advance included: `drawRows_spec` with at most 15 rows. -/
theorem DrawsSprite.of_draw (s : State) (x y n : Idx) :
    DrawsSprite s (s.advance.draw x y (s.spriteBytes n.val)) x y n := by
  have hlen : (s.spriteBytes n.val).length ≤ 32 := by
    rw [State.spriteBytes_length]
    omega
  obtain ⟨hcells, hhit⟩ := drawRows_spec (s.getV x) (s.getV y) 0 (s.spriteBytes n.val) hlen (s.disp, false)
  simp only [spriteHit_iff_spriteCovers, Bool.false_eq_true, false_or] at hcells hhit
  have hvf : (s.advance.draw x y (s.spriteBytes n.val)).getV 15 =
      flagByte (drawRows (s.getV x) (s.getV y) 0 (s.spriteBytes n.val) (s.disp, false)).2 :=
    State.setV_getV_same _ vf _
  refine ⟨fun c r => (hcells c r).1, fun c r => (hcells c r).2, fun hon => ?_, fun hoff => ?_⟩
  · exact hvf.trans (congrArg flagByte (hhit.2 hon))
  · refine hvf.trans (congrArg flagByte (Bool.eq_false_iff.2 fun htrue => ?_))
    obtain ⟨c, r, hcov, hon⟩ := hhit.1 htrue
    exact Bool.eq_false_iff.1 (hoff c r hcov) hon

theorem exec_drw_drawsSprite {s t : State} {x y n : Idx} (h : n.val = 0 ∨ s.i.toNat + n.val ≤ 4096)
    (he : exec (.drw x y n) s = .next t) : DrawsSprite s t x y n := by
  cases (exec_drw_of_fits x y h).symm.trans he
  exact DrawsSprite.of_draw s x y n

namespace DrawsSprite

variable {s t u v : State} {x y n : Idx}

theorem vf_eq_one_iff (h : DrawsSprite s t x y n) :
    t.getV 15 = 1 ↔ ∃ c r, SpriteCovers s x y n c r ∧ s.cell c r = true := by
  refine ⟨fun hone => by_contra fun hnone => ?_, h.collision⟩
  have hzero : t.getV 15 = 0 :=
    h.noCollision fun c r hcov => Bool.eq_false_iff.2 fun hon => hnone ⟨c, r, hcov, hon⟩
  exact absurd (hone.symm.trans hzero) (by decide)

theorem vf_eq_one_or_zero (h : DrawsSprite s t x y n) : t.getV 15 = 1 ∨ t.getV 15 = 0 :=
  or_iff_not_imp_left.2 fun hne => h.noCollision fun c r hcov =>
    Bool.eq_false_iff.2 fun hon => hne (h.collision ⟨c, r, hcov, hon⟩)

/-- A draw turns a cell on exactly where the sprite covers it and it is on afterwards. -/
theorem turns_on_iff (h : DrawsSprite s t x y n) (c : Fin 64) (r : Fin 32) :
    s.cell c r = false ∧ t.cell c r = true ↔ SpriteCovers s x y n c r ∧ t.cell c r = true := by
  refine and_congr_left fun hon => ⟨fun hoff => by_contra fun hncov => ?_, fun hcov => ?_⟩
  · exact Bool.eq_false_iff.1 hoff ((h.kept c r hncov).symm.trans hon)
  · exact Bool.eq_false_of_not_eq_true' ((h.toggled c r hcov).symm.trans hon)

/-- A second draw over the same cells toggles each covered cell back (R173). -/
theorem cell_of_draw_twice (h : DrawsSprite s t x y n) (h' : DrawsSprite u v x y n)
    (hcov : ∀ c r, SpriteCovers u x y n c r ↔ SpriteCovers s x y n c r) (hcell : ∀ c r, u.cell c r = t.cell c r)
    (c : Fin 64) (r : Fin 32) : v.cell c r = s.cell c r := by
  by_cases hc : SpriteCovers s x y n c r
  · rw [h'.toggled c r ((hcov c r).2 hc), hcell, h.toggled c r hc, Bool.not_not]
  · rw [h'.kept c r fun hu => hc ((hcov c r).1 hu), hcell, h.kept c r hc]

end DrawsSprite

end Sys2Proof.Machine
end

section
/-! SUPPORT. The statements of 43_display.md, settled. -/

namespace Sys2Proof.Proofs

open Sys2Proof Sys2Proof.Machine

/-- Settles O33: the draw in memory is `DrawsSprite.of_draw`, and past 4095 `execDrw_eq` is the fault. -/
theorem spriteDrawTogglesAndReportsCollision : Obligations.SpriteDrawTogglesAndReportsCollision := by
  refine ⟨fun w hw => ?_, fun s x y n => ⟨fun h => ?_, fun hn h => ?_⟩⟩
  · simp [decode, family_of_mask hw rfl]
  · have he := exec_drw_of_fits x y h
    have hdraws := DrawsSprite.of_draw s x y n
    exact ⟨_, he, fun c r => ⟨hdraws.toggled c r, hdraws.kept c r⟩, hdraws.collision, hdraws.noCollision, rfl,
      Frame.of_exec he rfl⟩
  · exact (execDrw_eq x y n s).trans (if_neg (by omega))

/-- Settles O34: the second sprite covers the same cells, so it toggles them back, and it collides with the cells that
the first one turned on. -/
theorem doubleDrawRestoresTheDisplay : Obligations.DoubleDrawRestoresTheDisplay := by
  intro s t u v x y n hfits hfirst hi hx hy hbytes hcell hsecond
  have hdraw := exec_drw_drawsSprite hfits hfirst
  have hdraw' := exec_drw_drawsSprite (hi.symm ▸ hfits) hsecond
  have hcov : ∀ c r, SpriteCovers u x y n c r ↔ SpriteCovers s x y n c r :=
    fun _ _ => SpriteCovers.of_same_sprite hi hx hy hbytes
  refine ⟨hdraw.cell_of_draw_twice hdraw' hcov hcell, ?_, hdraw'.vf_eq_one_or_zero⟩
  simp only [hdraw'.vf_eq_one_iff, hdraw.turns_on_iff, hcov, hcell]

/-- Settles O49: the footprints that list the display are those of CLS and DRW. -/
theorem displayChangesOnlyByClsAndDrw : Obligations.DisplayChangesOnlyByClsAndDrw := by
  rintro s t h ⟨c, r, hne⟩
  obtain ⟨_, _, rfl⟩ | ⟨w, i, hf, -, hw⟩ := step_enterFault_or_frame h
  · exact absurd rfl hne
  cases i with
  | cls => exact .inl ⟨w, hf⟩
  | drw x y n => exact .inr ⟨w, x, y, n, hf⟩
  | _ => exact absurd (hw.disp rfl c r) hne

/-- Settles O32: CLS is the fetch's advance with the display off. -/
theorem clearTurnsEveryCellOff : Obligations.ClearTurnsEveryCellOff := by
  refine ⟨Encodes.of_wholeWord .cls, fun s => ?_⟩
  exact ⟨_, rfl, Display.off_cell, rfl, ((WfFrame.refl s).advance.setDisp Display.off).toFrame⟩

end Sys2Proof.Proofs
end

section
/-! SUPPORT. Rules of the keys and the timers: what an instruction on a key answers, whether the host's step beeps, and
what the delay timer holds after host operations (R180 to R189, R218). -/

namespace Sys2Proof.Machine

/-! ## Instructions on a key (R181 to R186) -/

theorem exec_skp_of_key {s : State} {x k : Idx} (hk : (s.getV x).toNat = k.val) :
    exec (.skp x) s = .next (s.advance.skipIf s.keys[k]) := by
  refine (execSkp_eq x s).trans ((dif_pos (by omega)).trans ?_)
  simp only [hk]
  rfl

theorem exec_sknp_of_key {s : State} {x k : Idx} (hk : (s.getV x).toNat = k.val) :
    exec (.sknp x) s = .next (s.advance.skipIf (!s.keys[k])) := by
  refine (execSknp_eq x s).trans ((dif_pos (by omega)).trans ?_)
  simp only [hk]
  rfl

theorem exec_ldVxK_of_lowestPressed {s : State} {k : Idx} (x : Idx) (h : s.lowestPressed = some k) :
    exec (.ldVxK x) s = .next (s.advance.setV x (BitVec.ofNat 8 k.val)) := by
  show execLdVxK x s = _
  rw [execLdVxK, h]

theorem exec_ldVxK_of_no_key {s : State} (x : Idx) (h : s.lowestPressed = none) : exec (.ldVxK x) s = .next s := by
  show execLdVxK x s = _
  rw [execLdVxK, h, State.rewind_advance]

/-- A key index is a byte already: V[x] holds it uncut. -/
theorem ofNat_key_toNat (k : Idx) : (BitVec.ofNat 8 k.val).toNat = k.val :=
  Nat.mod_eq_of_lt (k.isLt.trans (by decide))

/-! ## The host's step and its output (D18) -/

/-- The outputs of `step` are Ok and Fault (R216). -/
theorem State.hostStep_ne_beep (s : State) (r : Byte) (b : Bool) : (s.hostStep r).2 ≠ .beep b := by
  unfold State.hostStep
  cases stepWith r s with
  | next t =>
    dsimp only
    split <;> exact nofun
  | fault f => exact nofun
  | refused q => exact nofun

/-! ## The delay timer under host operations (R189, R218) -/

theorem decayed_toNat (b : Byte) : (decayed b).toNat = b.toNat - 1 := by
  unfold decayed
  split
  · next hpos => exact BitVec.toNat_sub_of_le hpos
  · omega

/-- `decay_timers` alone moves DT among the three operations: one down for each, floored at 0. -/
theorem transactAll_dt_toNat (s : State) {ops : List HostOp}
    (h : ∀ op ∈ ops, op = .decayTimers ∨ op = .readDisplay ∨ ∃ k b, op = .setKey k b) :
    (transactAll ops s).1.dt.toNat = s.dt.toNat - ops.count .decayTimers := by
  induction ops generalizing s with
  | nil => rfl
  | cons op ops ih =>
    obtain ⟨hop, hops⟩ := List.forall_mem_cons.1 h
    have htail : (transactAll (op :: ops) s).1.dt.toNat = (transact op s).1.dt.toNat - ops.count .decayTimers :=
      ih (transact op s).1 hops
    obtain rfl | rfl | ⟨k, b, rfl⟩ := hop
    · have hdecay : (transact .decayTimers s).1.dt.toNat = s.dt.toNat - 1 := decayed_toNat s.dt
      rw [htail, hdecay, List.count_cons_self]
      omega
    · rw [htail, List.count_cons_of_ne (show HostOp.readDisplay ≠ .decayTimers from nofun)]
      rfl
    · rw [htail, List.count_cons_of_ne (show HostOp.setKey k b ≠ .decayTimers from nofun)]
      rfl

end Sys2Proof.Machine
end

section
/-! SUPPORT. The statements of 44_timers_keys.md, settled. -/

namespace Sys2Proof.Proofs

open Sys2Proof Sys2Proof.Machine

/-- Settles O35: on a key both end in a skip, on its state and on the negation, and past key 15 `execSkp_eq` and
`execSknp_eq` are the fault. -/
theorem skipsOnAKey : Obligations.SkipsOnAKey := by
  refine ⟨Encodes.of_x 0xE 0x9E fun w => decode_encode (.skp (fieldX w)),
    Encodes.of_x 0xE 0xA1 fun w => decode_encode (.sknp (fieldX w)),
    fun s x => ⟨fun k hk => ⟨?_, ?_⟩, fun h => ⟨?_, ?_⟩⟩⟩
  · exact exec_skips (exec_skp_of_key hk) id id
  · exact exec_skips (exec_sknp_of_key hk) (congrArg not) (congrArg not)
  · exact (execSkp_eq x s).trans (dif_neg (by omega))
  · exact (execSknp_eq x s).trans (dif_neg (by omega))

/-- Settles O36: the lowest pressed key goes to V[x], and with none the rewind undoes the fetch's advance. -/
theorem waitForKey : Obligations.WaitForKey := by
  refine ⟨Encodes.of_x 0xF 0x0A fun w => decode_encode (.ldVxK (fieldX w)),
    fun s x => ⟨fun k hk hlow => ?_, fun h => ?_⟩⟩
  · have hlowest := (s.lowestPressed_eq_some k).2 ⟨hk, hlow⟩
    exact exec_writes_register (·.toNat = k.val) (exec_ldVxK_of_lowestPressed x hlowest) (ofNat_key_toNat k)
  · exact exec_ldVxK_of_no_key x (s.lowestPressed_eq_none.2 h)

/-- Settles O37: each ends in one write, and the output of the host's step is no beep. -/
theorem timerMoves : Obligations.TimerMoves := by
  refine ⟨Encodes.of_x 0xF 0x07 fun w => decode_encode (.ldVxDt (fieldX w)),
    Encodes.of_x 0xF 0x15 fun w => decode_encode (.ldDtVx (fieldX w)),
    Encodes.of_x 0xF 0x18 fun w => decode_encode (.ldStVx (fieldX w)), fun s x => ⟨?_, ?_, ?_, s.hostStep_ne_beep⟩⟩
  · exact exec_writes_register (· = s.dt) rfl rfl
  · exact ⟨_, rfl, rfl, rfl, ((WfFrame.refl s).advance.setDt _).toFrame⟩
  · exact ⟨_, rfl, rfl, rfl, ((WfFrame.refl s).advance.setSt _).toFrame⟩

/-- Settles O38: the two moves (O37) at the ends, and one down for each `decay_timers` between them. -/
theorem delayTimerCountsDecays : Obligations.DelayTimerCountsDecays := by
  intro s t x y ops hops hload
  obtain ⟨-, -, -, hmoves⟩ := timerMoves
  obtain ⟨-, ⟨t', hload', hdt, -⟩, -⟩ := hmoves s x
  cases hload'.symm.trans hload
  obtain ⟨⟨u, hread, hy, -⟩, -⟩ := hmoves (transactAll ops t).1 y
  refine ⟨u, hread, ?_⟩
  calc (u.getV y).toNat = (transactAll ops t).1.dt.toNat := congrArg BitVec.toNat hy
    _ = t.dt.toNat - ops.count .decayTimers := transactAll_dt_toNat t hops
    _ = (s.getV x).toNat - ops.count .decayTimers := by rw [hdt]

end Sys2Proof.Proofs
end

section
/-! SUPPORT. Rules of faults and of the host operations: a cause raised is the fault entered, the word a fault records is
the fetched one, and what the host's step returns (R201 to R207, R215 to R220). -/

namespace Sys2Proof.Machine

/-! ## Faults in execute (R201, R204) -/

/-- `State.Raises` is also enough for the fault: the instruction enters it with its own word. -/
theorem exec_of_raises {s : State} {c : Cause} {i : Instr} (h : s.Raises c i) :
    exec i s = .next (s.enterFault c (some (encode i))) := by
  cases i with
  | ret => obtain ⟨hsp, rfl⟩ := h; exact (execRet_eq s).trans (dif_pos hsp)
  | call nnn => obtain ⟨hsp, rfl⟩ := h; exact (execCall_eq nnn s).trans (dif_neg hsp)
  | skp x => obtain ⟨hk, rfl⟩ := h; exact (execSkp_eq x s).trans (dif_neg hk)
  | sknp x => obtain ⟨hk, rfl⟩ := h; exact (execSknp_eq x s).trans (dif_neg hk)
  | drw x y n => obtain ⟨ha, rfl⟩ := h; exact (execDrw_eq x y n s).trans (if_neg ha)
  | ldB x => obtain ⟨ha, rfl⟩ := h; exact (execLdB_eq x s).trans (if_neg ha)
  | storeRegs x => obtain ⟨ha, rfl⟩ := h; exact (execStoreRegs_eq x s).trans (if_neg ha)
  | loadRegs x => obtain ⟨ha, rfl⟩ := h; exact (execLoadRegs_eq x s).trans (if_neg ha)
  | _ => exact h.elim

/-- An instruction that can raise nothing in this state leaves the status as it was. -/
theorem exec_status_of_not_raises {i : Instr} {s : State} (h : ∀ c, ¬ s.Raises c i) :
    ∃ t, exec i s = .next t ∧ t.status = s.status := by
  obtain ⟨t, ht⟩ := exec_answers_next i s
  obtain hst | ⟨c, hc, -⟩ := exec_status_or_raises ht
  · exact ⟨t, ht, hst⟩
  · exact absurd hc (h c)

/-- An instruction that raises the cause `c` exactly when `P` holds: its status, as a row of the tables of R201 to
R204. -/
theorem exec_status_of_raises_iff {i : Instr} {s : State} {P : Prop} [Decidable P] (c : Cause)
    (hrun : s.status = .running) (h : ∀ d, s.Raises d i ↔ P ∧ d = c) :
    ∃ t, exec i s = .next t ∧
      t.status = if P then (FaultAt s c.kind (encode i) c.loc).status else .running := by
  by_cases hP : P
  · exact ⟨_, exec_of_raises ((h c).2 ⟨hP, rfl⟩), (if_pos hP).symm⟩
  · obtain ⟨t, ht, hst⟩ := exec_status_of_not_raises fun d hd => hP ((h d).1 hd).1
    exact ⟨t, ht, (hst.trans hrun).trans (if_neg hP).symm⟩

/-! ## What a faulting step records (R203, R206) -/

/-- The word that an instruction's fault records is the fetched one: the shifts alone have an ignored field (R92), and
they raise nothing. -/
theorem State.Raises.encode_eq {s : State} {c : Cause} {i : Instr} {w : Word} (h : s.Raises c i)
    (hd : decode w = some i) : encode i = w := by
  obtain hw | ⟨x, rfl | rfl, -⟩ := encodesButForShiftY_of_decode hd
  · exact hw
  · exact h.elim
  · exact h.elim

/-- A step that does not answer a RUNNING state entered a fault with the fetched word, or with none where the fetch
itself raised it. -/
theorem step_enters_fault_with_word {s t : State} (h : step s = .next t) (ht : t.status ≠ .running) :
    ∃ c, t = s.enterFault c s.fetchWord.toOption := by
  obtain ⟨hs, ⟨c, o, hf, rfl⟩ | ⟨w, i, hf, he⟩⟩ := step_cases h
  · refine ⟨c, congrArg (s.enterFault c) ?_⟩
    obtain ⟨hpc, -, rfl⟩ | ⟨w, hw, -, -, rfl⟩ := State.fetch_eq_fault hf
    · rw [s.fetchWord_eq, if_neg (by omega)]; rfl
    · rw [hw]; rfl
  · obtain hst | ⟨c, hr, rfl⟩ := exec_status_or_raises he
    · exact absurd (hst.trans hs) ht
    · obtain ⟨hw, hd⟩ := State.fetch_eq_instr.1 hf
      exact ⟨c, by rw [hw, hr.encode_eq hd]; rfl⟩

/-! ## The host's step (R216) -/

/-- All that the byte of `stepWith` can do: a RUNNING state stays so, or the step is `step`. -/
theorem stepWith_random_or_step (r : Byte) (s : State) :
    (∃ x kk, s.status = .running ∧ stepWith r s = .next (s.random r x kk)) ∨ stepWith r s = step s := by
  cases hs : s.status with
  | faulted info => exact .inr (stepWith_of_faulted r hs)
  | running =>
    by_cases hrnd : ∃ w x kk, s.fetch = .instr w (.rnd x kk)
    · obtain ⟨w, x, kk, hf⟩ := hrnd
      exact .inl ⟨x, kk, rfl, stepWith_of_rnd r hs hf⟩
    · exact .inr (stepWith_of_not_rnd r fun w x kk hf => hrnd ⟨w, x, kk, hf⟩)

theorem stepWith_answers_next_of_running (r : Byte) {s : State} (h : s.status = .running) :
    ∃ t, stepWith r s = .next t := by
  obtain ⟨x, kk, -, hr⟩ | hr := stepWith_random_or_step r s
  · exact ⟨_, hr⟩
  · exact hr ▸ step_answers_next_of_running h

/-- Fault entry changes the status alone, to the fault the state then holds (R205). -/
theorem stepWith_enters_fault {r : Byte} {s t : State} {info : FaultInfo} (h : stepWith r s = .next t)
    (ht : t.status = .faulted info) : t = { s with status := .faulted info } := by
  obtain ⟨x, kk, hrun, hr⟩ | hr := stepWith_random_or_step r s
  · cases hr.symm.trans h
    exact nomatch hrun.symm.trans ht
  · obtain ⟨c, rfl⟩ := step_enters_fault_with_word (hr.symm.trans h) (ht ▸ nofun)
    cases ht
    rfl

theorem State.hostStep_of_running {s t : State} {r : Byte} (h : stepWith r s = .next t) (ht : t.status = .running) :
    s.hostStep r = (t, .ok) := by
  simp only [State.hostStep, h, ht]

theorem State.hostStep_of_fault {s t : State} {r : Byte} {info : FaultInfo} (h : stepWith r s = .next t)
    (ht : t.status = .faulted info) : s.hostStep r = (t, .fault info) := by
  simp only [State.hostStep, h, ht]

theorem State.hostStep_of_faulted {s : State} {info : FaultInfo} (h : s.status = .faulted info) (r : Byte) :
    s.hostStep r = (s, .fault info) := by
  simp only [State.hostStep, stepWith_of_faulted r h, step_of_faulted h]

/-- A host's step from RUNNING that returns a fault changes the status alone, to that fault (R205). -/
theorem State.hostStep_fault_state {s : State} {r : Byte} {info : FaultInfo} (hrun : s.status = .running)
    (h : (s.hostStep r).2 = .fault info) : (s.hostStep r).1 = { s with status := .faulted info } := by
  obtain ⟨t, ht⟩ := stepWith_answers_next_of_running r hrun
  cases hst : t.status with
  | running => rw [State.hostStep_of_running ht hst] at h; cases h
  | faulted info' =>
    rw [State.hostStep_of_fault ht hst] at h ⊢
    cases h
    exact stepWith_enters_fault ht hst

/-! ## `load` (R205, R207, R232, R233) -/

theorem State.load_of_faulted {s : State} {info : FaultInfo} (h : s.status = .faulted info) (image : List Byte) :
    s.load image = (s, .fault info) := by
  simp only [State.load, h]

/-- Everything `load` can do in RUNNING. -/
theorem State.load_of_running {s : State} (h : s.status = .running) (image : List Byte) : s.load image =
    if imageFits image then
      ({ s with mem := Memory.writeMany s.fontRom s.mem Config.programBase image, pc := 0x200 }, .ok)
    else ({ s with status := .faulted loadFaultInfo }, .fault loadFaultInfo) := by
  simp only [State.load, h]

theorem State.load_fault_state {s : State} {image : List Byte} {info : FaultInfo} (hrun : s.status = .running)
    (h : (s.load image).2 = .fault info) : (s.load image).1 = { s with status := .faulted info } := by
  rw [State.load_of_running hrun] at h ⊢
  split at h <;> cases h
  exact congrArg Prod.fst (if_neg ‹_›)

/-! ## `read_display` (R220) -/

/-- The rows one after the other are the display's own flattening, of which Lean knows length and cells. -/
theorem State.readDisplay_eq (s : State) : s.readDisplay = s.disp.flatten.toList := by
  unfold State.readDisplay
  rcases s.disp with ⟨⟨rows⟩, h⟩
  simp [Vector.flatten, Function.comp_def, Vector.toList]

theorem State.readDisplay_length (s : State) : s.readDisplay.length = 2048 :=
  s.readDisplay_eq ▸ Vector.length_toList

/-- Cell (x, y) is number x + 64*y (R32, R220). -/
theorem State.readDisplay_getElem? (s : State) (x : Fin 64) (y : Fin 32) :
    s.readDisplay[x.val + 64 * y.val]? = some (s.cell x y) := by
  have hlt : x.val + 64 * y.val < 32 * 64 := by omega
  have hrow : (x.val + 64 * y.val) / 64 = y.val := by omega
  have hcol : (x.val + 64 * y.val) % 64 = x.val := by omega
  rw [State.readDisplay_eq, Vector.getElem?_toList, Vector.getElem?_eq_getElem hlt, Vector.getElem_flatten]
  simp only [hrow, hcol]
  rfl

end Sys2Proof.Machine
end

section
/-! SUPPORT. The statements of 60_exceptions.md, settled. -/

namespace Sys2Proof.Proofs

open Sys2Proof Sys2Proof.Machine

/-- Settles O56: one operation is `transact_keeps_inv`, and a sequence starts from `State.reset_inv`. -/
theorem hostOperationsKeepTheInvariant : Obligations.HostOperationsKeepTheInvariant :=
  ⟨fun op _ hs => transact_keeps_inv hs op, transactAll_keeps_inv State.reset_inv⟩

/-- Settles O39: the conditions of `State.Raises` are those of the tables, and every other instruction raises nothing. -/
theorem execFaultsExactlyAsTheTableSays : Obligations.ExecFaultsExactlyAsTheTableSays := by
  intro i s hrun
  cases i with
  | ret => exact exec_status_of_raises_iff ⟨.stackUnderflow, none⟩ hrun fun _ => Iff.rfl
  | call => exact exec_status_of_raises_iff ⟨.stackOverflow, none⟩ hrun fun _ => and_congr_left' (by omega)
  | skp x | sknp x =>
    exact exec_status_of_raises_iff (.key (s.getV x).toNat) hrun fun _ => and_congr_left' (by omega)
  | drw | ldB | storeRegs | loadRegs =>
    exact exec_status_of_raises_iff (.memory (max s.i.toNat 4096)) hrun fun _ => and_congr_left' (by omega)
  | _ => exact hrun ▸ exec_status_of_not_raises fun _ => id

/-- Settles O40: `State.hostStep_fault_state` and `State.load_fault_state`. -/
theorem faultEntryChangesTheStatusOnly : Obligations.FaultEntryChangesTheStatusOnly := by
  intro s op info hrun hop h
  obtain ⟨r, rfl⟩ | ⟨image, rfl⟩ := hop
  · exact State.hostStep_fault_state hrun h
  · exact State.load_fault_state hrun h

/-- Settles O41: the fault entry keeps and records pc, and its word is the fetched one. -/
theorem stepFaultRecordsPcAndWord : Obligations.StepFaultRecordsPcAndWord := by
  intro s t h ht
  obtain ⟨c, rfl⟩ := step_enters_fault_with_word h ht
  exact ⟨_, rfl, rfl, rfl, fun _ hw => congrArg Except.toOption hw, fun _ he => congrArg Except.toOption he⟩

/-- Settles O42: `step` and `load` stop at once, the next three write no status, and the last two set it. -/
theorem faultedIsSticky : Obligations.FaultedIsSticky := by
  intro s info hs
  refine ⟨State.hostStep_of_faulted hs, State.load_of_faulted hs, fun op hop => ?_, fun op hop => ?_⟩
  · rw [← hs]
    obtain rfl | rfl | ⟨k, b, rfl⟩ := hop <;> exact ⟨rfl, rfl⟩
  · obtain rfl | rfl := hop <;> rfl

/-- Settles O45: a key is one entry of its vector, and the cells are the rows of the display one after the other. -/
theorem setKeyAndReadDisplay : Obligations.SetKeyAndReadDisplay := by
  intro s
  refine ⟨fun k b => ⟨_, rfl, ?_, fun j hj => ?_, rfl⟩, _, rfl, s.readDisplay_length, s.readDisplay_getElem?⟩
  · exact Vector.getElem_set_self k.isLt
  · exact Vector.getElem_set_ne k.isLt j.isLt fun e => hj (Fin.ext e.symm)

/-- Settles O44: `decayed_toNat` for both timers, and the frame of their two writes. -/
theorem decayTimers : Obligations.DecayTimers := fun s =>
  have hframe := ((WfFrame.refl s).setDt (decayed s.dt)).setSt (decayed s.st)
  ⟨_, _, rfl, decayed_toNat s.dt, decayed_toNat s.st, beq_iff_eq, rfl, hframe.toFrame⟩

end Sys2Proof.Proofs
end

section
/-! SUPPORT. Rules of `load` in RUNNING, one for each answer to its bound check (R232, R233). -/

namespace Sys2Proof.Machine

/-- The bound check of R232 and R233 in numbers. -/
theorem imageFits_iff (image : List Byte) : imageFits image ↔ 512 + image.length ≤ 4096 := decide_eq_true_iff

theorem State.load_of_fits {s : State} {image : List Byte} (hrun : s.status = .running)
    (hfits : 512 + image.length ≤ 4096) : s.load image =
      ({ s with mem := Memory.writeMany s.fontRom s.mem Config.programBase image, pc := 0x200 }, .ok) :=
  (State.load_of_running hrun image).trans (if_pos ((imageFits_iff image).2 hfits))

theorem State.load_of_not_fits {s : State} {image : List Byte} (hrun : s.status = .running)
    (hlong : 4096 < 512 + image.length) :
    s.load image = ({ s with status := .faulted loadFaultInfo }, .fault loadFaultInfo) :=
  (State.load_of_running hrun image).trans (if_neg (mt (imageFits_iff image).1 (not_le.2 hlong)))

end Sys2Proof.Machine
end

section
/-! SUPPORT. The statements of 70_reset_and_hazards.md, settled. -/

namespace Sys2Proof.Proofs

open Sys2Proof Sys2Proof.Machine

/-- Settles O46: an image that fits is one store at 0x200 and a jump there, and a longer one is the fault's status. -/
theorem loadCopiesTheImageOrFaults : Obligations.LoadCopiesTheImageOrFaults := by
  refine fun s image hrun => ⟨fun hfits => ?_, State.load_of_not_fits hrun⟩
  have hframe := ((WfFrame.refl s).store 0x200 image.length rfl hfits).jumpTo 0x200
  exact ⟨_, State.load_of_fits hrun hfits, rfl,
    fun _ hk => Memory.read_writeMany_add s.fontRom s.mem 0x200 image hk, hframe.toFrame⟩

end Sys2Proof.Proofs
end
